-- ==== Sys2Proof/Word.lean ====
section
/-! DEFINITION. The 64-bit word: a memory cell (a signed 64-bit integer, 10_state.md R16) and the
instruction pointer (an unsigned one, R19) are both one `Word`. -/

namespace Sys2Proof

/-- 64 bits. `Word.toInt` of a cell is its i64 value, `Word.toNat` of the instruction pointer its u64 value
(00_scope.md R7, R9). -/
abbrev Word := BitVec 64

end Sys2Proof
end

