-- ==== Sys2Proof/Config.lean ====
section
/-! DEFINITION. The implementation parameters of 00_scope.md R7. The constants stand here; the three open
parameters are the fields of `Params`, which a state carries (log entry 1), so that every statement is about
every setting. MEM_LEN is fixed by the loaded program and is part of the memory. -/

namespace Sys2Proof

/-- CELL_BITS (R7). -/
def cellBits : Nat := 64

/-- IP_BITS (R7). -/
def ipBits : Nat := 64

/-- MODE_SLOTS (R7). -/
def modeSlots : Nat := 3

/-- The largest MEM_LEN, 2^63 (R7). -/
def maxMemLen : Nat := 9223372036854775808

/-- OVERFLOW (R7, 41_arithmetic.md R92). -/
inductive OverflowPolicy where
  | fault
  | wrap
  deriving DecidableEq, Repr

/-- HIGH_DIGITS (R7, 30_encoding.md R64). -/
inductive HighDigitsPolicy where
  | ignore
  | fault
  deriving DecidableEq, Repr

/-- The open parameters a model takes (R7). -/
structure Params where
  overflow : OverflowPolicy
  checkUnusedModeDigits : Bool
  highDigits : HighDigitsPolicy
  deriving DecidableEq, Repr

/-- The spec's defaults (R7; decisions D8, D6, D5). -/
def Params.default : Params where
  overflow := .fault
  checkUnusedModeDigits := true
  highDigits := .ignore

end Sys2Proof
end

