-- ==== Sys2Proof/Syntax.lean ====
section
/-! DEFINITION. The instructions as the decoder yields them (30_encoding.md R62, R66), and why a word is no
instruction (60_exceptions.md R114). An instruction does not hold its parameter cells: the decoder reads none
(R65), and the handler reads them in its own order (40_dispatch.md R85). -/

namespace Sys2Proof

/-- A parameter mode (30_encoding.md R59). -/
inductive Mode where
  | position
  | immediate
  deriving DecidableEq, Repr

/-- What an opcode uses a parameter slot for (30_encoding.md R57). -/
inductive SlotClass where
  | value
  | forced
  | unused
  deriving DecidableEq, Repr

/-- One thing for each of the three mode slots, always three (30_encoding.md R58). -/
structure Slots (α : Type) where
  s1 : α
  s2 : α
  s3 : α
  deriving DecidableEq, Repr

/-- The closed set of opcodes (00_scope.md R2). -/
inductive Opcode where
  | add
  | mul
  | input
  | output
  | jt
  | jf
  | lt
  | eq
  | halt
  deriving DecidableEq, Repr

/-- The two views of the slots that the decoder yields: the raw digits, and the effective modes after the
write-target override (30_encoding.md R62). -/
structure Fields where
  digits : Slots Nat
  modes : Slots Mode
  deriving DecidableEq, Repr

/-- A decoded instruction, one constructor for each row of opcode_table.json (30_encoding.md R56, R66). -/
inductive Instr where
  | add (f : Fields)
  | mul (f : Fields)
  | input (f : Fields)
  | output (f : Fields)
  | jt (f : Fields)
  | jf (f : Fields)
  | lt (f : Fields)
  | eq (f : Fields)
  | halt (f : Fields)
  deriving DecidableEq, Repr

/-- The sub-causes of a DecodeError (60_exceptions.md R114). -/
inductive DecodeCause where
  | badOpcode
  | badMode
  | highDigits
  | negativeWord
  deriving DecidableEq, Repr

/-- What `raise DecodeError(sub, slot, value)` names (30_encoding.md R66). -/
structure DecodeError where
  cause : DecodeCause
  slot : Fin 4
  value : Int
  deriving DecidableEq, Repr

end Sys2Proof
end

