-- ==== Sys2Proof/Decode.lean ====
section
/-! DEFINITION. The opcode map, the slot classes and lengths, the decoder in the order of checks of
30_encoding.md R66, and the encoder written from the same tables (R54, R72). The encoding is decimal
(00_scope.md R10). -/

namespace Sys2Proof

/-- Decimal digit j of w (00_scope.md R10). -/
def digit (j w : Nat) : Nat := w / 10 ^ j % 10

/-- The opcode map, from opcode to number (30_encoding.md R56; 5, 7 and 8 PRESUMED there, log entry 8). -/
def Opcode.number : Opcode → Nat
  | .add => 1
  | .mul => 2
  | .input => 3
  | .output => 4
  | .jt => 5
  | .jf => 6
  | .lt => 7
  | .eq => 8
  | .halt => 99

/-- The opcode map, from number to opcode; every other number is an unknown opcode (30_encoding.md R56). -/
def opcodeOfNumber : Nat → Option Opcode
  | 1 => some .add
  | 2 => some .mul
  | 3 => some .input
  | 4 => some .output
  | 5 => some .jt
  | 6 => some .jf
  | 7 => some .lt
  | 8 => some .eq
  | 99 => some .halt
  | _ => none

/-- The class of each slot (30_encoding.md R57). -/
def Opcode.classes : Opcode → Slots SlotClass
  | .add => ⟨.value, .value, .forced⟩
  | .mul => ⟨.value, .value, .forced⟩
  | .input => ⟨.forced, .unused, .unused⟩
  | .output => ⟨.value, .unused, .unused⟩
  | .jt => ⟨.value, .value, .unused⟩
  | .jf => ⟨.value, .value, .unused⟩
  | .lt => ⟨.value, .value, .forced⟩
  | .eq => ⟨.value, .value, .forced⟩
  | .halt => ⟨.unused, .unused, .unused⟩

/-- The length in cells: the instruction word and its parameter cells (30_encoding.md R53, R57, R67). -/
def Opcode.length : Opcode → Nat
  | .add => 4
  | .mul => 4
  | .input => 2
  | .output => 2
  | .jt => 3
  | .jf => 3
  | .lt => 4
  | .eq => 4
  | .halt => 1

/-- The number of parameter cells (30_encoding.md R53). -/
def Opcode.paramCount (op : Opcode) : Nat := op.length - 1

/-- The opcode of an instruction. -/
def Instr.opcode : Instr → Opcode
  | .add _ => .add
  | .mul _ => .mul
  | .input _ => .input
  | .output _ => .output
  | .jt _ => .jt
  | .jf _ => .jf
  | .lt _ => .lt
  | .eq _ => .eq
  | .halt _ => .halt

/-- The slots of an instruction. -/
def Instr.fields : Instr → Fields
  | .add f => f
  | .mul f => f
  | .input f => f
  | .output f => f
  | .jt f => f
  | .jf f => f
  | .lt f => f
  | .eq f => f
  | .halt f => f

/-- The instruction with a given opcode and slots. -/
def Opcode.instr : Opcode → Fields → Instr
  | .add, f => .add f
  | .mul, f => .mul f
  | .input, f => .input f
  | .output, f => .output f
  | .jt, f => .jt f
  | .jf, f => .jf f
  | .lt, f => .lt f
  | .eq, f => .eq f
  | .halt, f => .halt f

/-- The mode a checked digit stands for (30_encoding.md R59, R60). -/
def modeOfDigit : Nat → Option Mode
  | 0 => some .position
  | 1 => some .immediate
  | _ => none

/-- The effective mode of a slot of a class, from its digit; none where the digit is illegal
(30_encoding.md R60 to R63). -/
def effectiveMode (p : Params) : SlotClass → Nat → Option Mode
  | .forced, _ => some .immediate
  | .value, d => modeOfDigit d
  | .unused, d =>
    if p.checkUnusedModeDigits then modeOfDigit d
    else some (if d = 1 then .immediate else .position)

/-- The three mode digits: hundreds, thousands and ten-thousands (30_encoding.md R54, R58). -/
def modeDigits (raw : Nat) : Slots Nat := ⟨digit 2 raw, digit 3 raw, digit 4 raw⟩

/-- The effective modes of the slots 1, 2, 3, checked in this order; an error is the first bad slot
(30_encoding.md R66). -/
def effectiveModes (p : Params) (c : Slots SlotClass) (d : Slots Nat) : Except (Fin 4) (Slots Mode) :=
  match effectiveMode p c.s1 d.s1, effectiveMode p c.s2 d.s2, effectiveMode p c.s3 d.s3 with
  | none, _, _ => .error 1
  | some _, none, _ => .error 2
  | some _, some _, none => .error 3
  | some m1, some m2, some m3 => .ok ⟨m1, m2, m3⟩

/-- The decoder: a pure total function of the instruction word (30_encoding.md R65, R66). -/
def decode (p : Params) (w : Word) : Except DecodeError Instr :=
  if w.toInt < 0 then .error ⟨.negativeWord, 0, w.toInt⟩
  else
    match opcodeOfNumber (w.toNat % 100) with
    | none => .error ⟨.badOpcode, 0, w.toInt⟩
    | some op =>
      match effectiveModes p op.classes (modeDigits w.toNat) with
      | .error k => .error ⟨.badMode, k, w.toInt⟩
      | .ok modes =>
        if p.highDigits = .fault ∧ w.toNat / 100000 ≠ 0 then .error ⟨.highDigits, 0, w.toInt⟩
        else .ok (op.instr ⟨modeDigits w.toNat, modes⟩)

/-- The number of an instruction word with a given opcode and mode digits (30_encoding.md R54, R72). -/
def wordNumber (op : Opcode) (d : Slots Nat) : Nat :=
  op.number + 100 * d.s1 + 1000 * d.s2 + 10000 * d.s3

/-- The instruction word of an instruction: its opcode and its own three digits, no high digits. -/
def encode (i : Instr) : Word := BitVec.ofNat 64 (wordNumber i.opcode i.fields.digits)

/-- Cell k of an instruction given as one number, bit 0 the least significant bit of its first cell, 64 bits a
cell, every bit from nbits up 0 (log entry 7). -/
def tableCell (nbits w k : Nat) : Word := BitVec.ofNat 64 (w % 2 ^ nbits / 2 ^ (64 * k))

/-- What the decoder reads, under the spec's default parameters, from an instruction given as one number
(log entry 7). -/
def decodeTableWord (nbits w : Nat) : Option Instr :=
  (decode Params.default (tableCell nbits w 0)).toOption

end Sys2Proof
end

