-- ==== Sys2Proof/Machine/State.lean ====
section
/-! DEFINITION. The state: the core's own state exactly as 10_state.md R14 lists it (memory, ip, run state, error
record), and beside it, as data, the inputs of a step (parameters and the host's answers, 00_scope.md R8) and the
output sequence of the run's observation (10_state.md R15). -/

namespace Sys2Proof.Machine

/-- A cell of memory at an address: the smallest unit is one 64-bit cell, never split (20_memory.md R33, R34). -/
abbrev Cell := Nat × Word

/-- The cell memory: MEM_LEN and the cells that are not 0, by strictly rising address (10_state.md R16, R18; an
unlisted address below MEM_LEN reads 0, log entry 2). -/
structure Memory where
  cells : List Cell
  len : Nat
  deriving DecidableEq, Repr

/-- The run state (10_state.md R26). -/
inductive RunState where
  | running
  | halted
  | failed
  deriving DecidableEq, Repr

/-- The sub-causes of an AddressError (60_exceptions.md R115). -/
inductive AddressCause where
  | fetch
  | read
  | write
  | jump
  deriving DecidableEq, Repr

/-- The sub-causes of an IOError (60_exceptions.md R116). -/
inductive IoCause where
  | inputExhausted
  | inputMalformed
  | outputRejected
  deriving DecidableEq, Repr

/-- The sub-causes of an OverflowError (60_exceptions.md R117). -/
inductive OverflowCause where
  | add
  | multiply
  deriving DecidableEq, Repr

/-- An error kind together with its sub-cause (60_exceptions.md R113 to R117; log entry 12). -/
inductive Cause where
  | noError
  | decode (c : DecodeCause)
  | address (c : AddressCause)
  | io (c : IoCause)
  | overflow (c : OverflowCause)
  deriving DecidableEq, Repr

/-- The error record (10_state.md R28): kind and sub are its `cause`, `atIp` is the field `at`. -/
structure ErrRecord where
  cause : Cause
  slot : Fin 4
  value : Int
  atIp : Word
  deriving DecidableEq, Repr

/-- The record while the run has not failed (10_state.md R28). -/
def ErrRecord.none : ErrRecord where
  cause := .noError
  slot := 0
  value := 0
  atIp := 0#64

/-- The host's answers to an input request (42_io.md R102). -/
inductive InputAnswer where
  | value (v : Word)
  | endOfData
  | malformed
  deriving DecidableEq, Repr

/-- The host's answers to an output offer (42_io.md R103). -/
inductive OutputAnswer where
  | accepted
  | rejected
  deriving DecidableEq, Repr

/-- The host's side of the I/O channel (42_io.md R95): its answers to the coming requests, oldest first, and what
it answers to each request after those (log entry 3). An input request may be unanswered (R100; log entry 4). An output
offer never is: the core waits in exactly one place, inside IN (60_exceptions.md R128). -/
structure IoChannel where
  answers : List InputAnswer
  answersAfter : Option InputAnswer
  verdicts : List OutputAnswer
  verdictsAfter : OutputAnswer
  deriving DecidableEq, Repr

/-- A host whose input is exhausted and whose sink accepts (DESIGN CHOICE, log entry 3; the convention of
95_test_vectors.md). -/
def IoChannel.default : IoChannel where
  answers := []
  answersAfter := some .endOfData
  verdicts := []
  verdictsAfter := .accepted

structure State where
  /-- The cell memory (10_state.md R16). -/
  mem : Memory
  /-- The instruction pointer (10_state.md R19). -/
  ip : Word
  /-- The run state (10_state.md R26). -/
  runState : RunState
  /-- The error record (10_state.md R28). -/
  err : ErrRecord
  /-- The accepted output values, oldest first (70_reset_and_hazards.md R137). -/
  out : List Word
  /-- The parameters, fixed for the run (00_scope.md R7). -/
  params : Params
  /-- The host's answers, inputs of the step (00_scope.md R8). -/
  channel : IoChannel
  deriving DecidableEq, Repr

/-- Why no step is enabled. -/
inductive Fault where
  /-- Raised by `step` when the run has ended, Halted or Failed: no step is enabled (10_state.md R27,
  40_dispatch.md R77). Safe: the machine does nothing there. -/
  | runEnded
  /-- Raised by IN when the host has not answered its input request: the step waits, nothing moves, and the host's
  answer lifts the wait (42_io.md R100; 60_exceptions.md R128; 93_implementation_defined.md I11). Safe: the model stops where the hardware waits. -/
  | inputUnanswered
  deriving DecidableEq, Repr

/-- What the model does not run. -/
inductive Refusal where
  /-- Raised by an arm of `exec` that has no meaning yet. Safe: it stops. No arm uses it. -/
  | notModelled (mnemonic : String)
  /-- Raised by `State.start` for an image of more than 2^63 cells (93_implementation_defined.md I14; 00_scope.md
  R7). Safe: no run starts. -/
  | imageTooLarge
  deriving DecidableEq, Repr

/-- The state right after the start of a run (70_reset_and_hazards.md R129, R131; 10_state.md R31) with the empty
image, the spec's default parameters and the default channel (log entries 1, 3 and 6). -/
def State.reset : State where
  mem := ⟨[], 0⟩
  ip := 0#64
  runState := .running
  err := ErrRecord.none
  out := []
  params := Params.default
  channel := IoChannel.default

end Sys2Proof.Machine
end

