-- ==== Sys2Proof/Machine/Ops.lean ====
section
/-! DEFINITION. The shared operations: the memory and its canonical form, the bounds-checked accesses
(20_memory.md R40, R41), failure entry (60_exceptions.md R118), the ip update (40_dispatch.md R87), the jump
(43_jumps.md R106) and the two host requests (42_io.md R102, R103). There is no return from a failure (60 R122). -/

namespace Sys2Proof.Machine

/-- What the listed cells give at an address; 0 where none is listed. -/
def cellAt : List Cell → Nat → Word
  | [], _ => 0#64
  | (b, v) :: rest, a => if a = b then v else cellAt rest a

/-- The listed cells with v at a, kept in canonical form: a 0 is not listed. -/
def putCell : List Cell → Nat → Word → List Cell
  | [], a, v => if v = 0#64 then [] else [(a, v)]
  | (b, w) :: rest, a, v =>
    if a < b then (if v = 0#64 then (b, w) :: rest else (a, v) :: (b, w) :: rest)
    else if a = b then (if v = 0#64 then rest else (a, v) :: rest)
    else (b, w) :: putCell rest a v

/-- Canonical form of a list of cells from address lo up and below hi: strictly rising, no 0. -/
def cellsWf : Nat → Nat → List Cell → Bool
  | _, _, [] => true
  | lo, hi, (a, v) :: rest => decide (lo ≤ a) && decide (a < hi) && decide (v ≠ 0#64) && cellsWf (a + 1) hi rest

/-- The canonical form of a memory: its cells rise strictly, lie below MEM_LEN and are not 0. -/
def Memory.wf (m : Memory) : Bool := cellsWf 0 m.len m.cells

/-- The value of a cell. -/
def Memory.get (m : Memory) (a : Nat) : Word := cellAt m.cells a

/-- The memory with one cell changed; MEM_LEN stays (10_state.md R18). -/
def Memory.set (m : Memory) (a : Nat) (v : Word) : Memory := { m with cells := putCell m.cells a v }

/-- An address is valid iff it is one of 0 to MEM_LEN-1 (20_memory.md R35); it is never reduced (R36). -/
abbrev Memory.valid (m : Memory) (a : Int) : Prop := 0 ≤ a ∧ a < m.len

/-- The argument of `raise`: the error kind with its sub-cause, the slot and the value (60_exceptions.md R118). -/
structure Raise where
  cause : Cause
  slot : Fin 4
  value : Int
  deriving DecidableEq, Repr

/-- An AddressError at an address (60_exceptions.md R115). -/
def addressError (c : AddressCause) (a : Int) : Raise := ⟨.address c, 0, a⟩

/-- A DecodeError as it is raised (30_encoding.md R66). -/
def decodeRaise (e : DecodeError) : Raise := ⟨.decode e.cause, e.slot, e.value⟩

/-- An IOError; its value is 0 (60_exceptions.md R116). -/
def ioError (c : IoCause) : Raise := ⟨.io c, 0, 0⟩

/-- An OverflowError; its value is 0 (60_exceptions.md R117). -/
def overflowError (c : OverflowCause) : Raise := ⟨.overflow c, 0, 0⟩

/-- Failure entry: the run state and the error record, and nothing else (60_exceptions.md R118). -/
def State.raise (s : State) (r : Raise) : State :=
  { s with runState := .failed, err := ⟨r.cause, r.slot, r.value, s.ip⟩ }

/-- The end of an instruction: its effect, or failure entry from the state s (40_dispatch.md R78, R88). -/
def complete (s : State) : Except Raise State → Host.Outcome State Fault Refusal
  | .ok t => .next t
  | .error r => .next (s.raise r)

/-- MemRead(a, 1) (20_memory.md R40). -/
def State.memRead (s : State) (a : Int) : Except Raise Word :=
  if s.mem.valid a then .ok (s.mem.get a.toNat) else .error (addressError .read a)

/-- The bounds check of a write (20_memory.md R41; made early by IN, 42_io.md R98). -/
def State.checkWrite (s : State) (a : Int) : Except Raise Unit :=
  if s.mem.valid a then .ok () else .error (addressError .write a)

/-- MemWrite(a, 1, v) (20_memory.md R41). -/
def State.memWrite (s : State) (a : Int) (v : Word) : Except Raise State := do
  s.checkWrite a
  return { s with mem := s.mem.set a.toNat v }

/-- The fall-through ip update (40_dispatch.md R87). -/
def State.advance (s : State) (n : Nat) : State := { s with ip := s.ip + BitVec.ofNat 64 n }

/-- jump_to(t): an absolute target; a negative one cannot be stored (43_jumps.md R106). -/
def State.jumpTo (s : State) (t : Word) : Except Raise State :=
  if t.toInt < 0 then .error (addressError .jump t.toInt) else .ok { s with ip := t }

/-- The fetch of the instruction word at ip (40_dispatch.md R78, R79). -/
def State.fetchWord (s : State) : Except Raise Word :=
  if s.ip.toNat < s.mem.len then .ok (s.mem.get s.ip.toNat) else .error (addressError .fetch s.ip.toNat)

/-- Fetch and decode, which come before the handler (40_dispatch.md R78, R80, R85). -/
def State.fetchInstr (s : State) : Except Raise Instr := do
  let raw ← s.fetchWord
  match decode s.params raw with
  | .ok i => return i
  | .error e => throw (decodeRaise e)

/-- InRead(): the host's next answer, now given, or none while it has not answered (42_io.md R100, R102). -/
def State.inRead (s : State) : Option (InputAnswer × State) :=
  match s.channel.answers with
  | a :: rest => some (a, { s with channel := { s.channel with answers := rest } })
  | [] => s.channel.answersAfter.map fun a => (a, s)

/-- The host's verdict on an output offer, which the core does not wait for (42_io.md R103; 60_exceptions.md R128). -/
def State.verdict (s : State) : OutputAnswer × State :=
  match s.channel.verdicts with
  | a :: rest => (a, { s with channel := { s.channel with verdicts := rest } })
  | [] => (s.channel.verdictsAfter, s)

/-- OutWrite(v): an accepted value is appended to the output as one record, a rejected one is not
(42_io.md R97, R103). -/
def State.outWrite (s : State) (v : Word) : OutputAnswer × State :=
  match s.verdict with
  | (.accepted, t) => (.accepted, { t with out := t.out ++ [v] })
  | (.rejected, t) => (.rejected, t)

end Sys2Proof.Machine
end

