-- ==== Sys2Proof/Machine/Boot.lean ====
section
/-! DEFINITION. What the host does to start a run (70_reset_and_hazards.md R130 to R134): seed the image, load it
and start; and what it does while a run waits (42_io.md R100): answer. -/

namespace Sys2Proof.Machine

/-- The memory with the values c at the addresses from a on, MEM_LEN as it is. -/
def Memory.load (m : Memory) (a : Nat) : List Word → Memory
  | [] => m
  | v :: rest => Memory.load (m.set a v) (a + 1) rest

/-- The memory of a loaded image: MEM_LEN is its length, cell a is its a-th value (70_reset_and_hazards.md R131). -/
def Memory.ofImage (c : List Word) : Memory := Memory.load ⟨[], c.length⟩ 0 c

/-- Seeding: the host overwrites a cell of the image before the start; it cannot change its length
(70_reset_and_hazards.md R134). -/
def seedImage (c : List Word) (a : Nat) (v : Word) : List Word := c.set a v

/-- The start of a run from an image, under given parameters and with a given host (70_reset_and_hazards.md R131;
10_state.md R31). An image of more than 2^63 cells is refused (93_implementation_defined.md I14). -/
def State.start (p : Params) (h : IoChannel) (c : List Word) : Host.Outcome State Fault Refusal :=
  if c.length ≤ maxMemLen then
    .next {
      mem := Memory.ofImage c
      ip := 0#64
      runState := .running
      err := ErrRecord.none
      out := []
      params := p
      channel := h }
  else .refused .imageTooLarge

/-- The host answers an input request, after the answers it has already given (42_io.md R100, R102). -/
def State.hostAnswersInput (s : State) (a : InputAnswer) : State :=
  { s with channel := { s.channel with answers := s.channel.answers ++ [a] } }

/-- The host fixes its answer to a coming output offer, after those it has already fixed (42_io.md R103). -/
def State.hostAnswersOutput (s : State) (a : OutputAnswer) : State :=
  { s with channel := { s.channel with verdicts := s.channel.verdicts ++ [a] } }

end Sys2Proof.Machine
end

