-- ==== Sys2Proof/Machine/Flags.lean ====
section
/-! DEFINITION. The ALU: exact results, the overflow policy (41_arithmetic.md R91, R92) and the comparisons
(44_compare.md R110). The core has no flags (10_state.md R20): a comparison's result is the word 1 or 0. -/

namespace Sys2Proof.Machine

/-- in_i64(x) (00_scope.md R9). -/
abbrev inI64 (x : Int) : Prop := -9223372036854775808 ≤ x ∧ x ≤ 9223372036854775807

/-- wrap64(x): the word whose i64 value is x modulo 2^64 (00_scope.md R9). -/
def wrap64 (x : Int) : Word := BitVec.ofInt 64 x

/-- alu_result(kind, x) for the exact integer result x (41_arithmetic.md R92). -/
def aluResult (p : Params) (kind : OverflowCause) (x : Int) : Except Raise Word :=
  if inI64 x then .ok (wrap64 x)
  else
    match p.overflow with
    | .wrap => .ok (wrap64 x)
    | .fault => .error (overflowError kind)

/-- The sum of two i64 operands (41_arithmetic.md R91, R93). -/
def aluAdd (p : Params) (a b : Word) : Except Raise Word := aluResult p .add (a.toInt + b.toInt)

/-- The product of two i64 operands (41_arithmetic.md R91, R94). -/
def aluMul (p : Params) (a b : Word) : Except Raise Word := aluResult p .multiply (a.toInt * b.toInt)

/-- The signed order, as 1 or 0 (44_compare.md R108, R110). -/
def aluLt (a b : Word) : Word := if a.toInt < b.toInt then 1#64 else 0#64

/-- Equality, as 1 or 0 (44_compare.md R109, R110). -/
def aluEq (a b : Word) : Word := if a = b then 1#64 else 0#64

end Sys2Proof.Machine
end

