-- ==== Sys2Proof/Machine/Operands.lean ====
section
/-! DEFINITION. Operand resolution (40_dispatch.md R82 to R84): the parameter cell, a value slot through its
effective mode, a destination slot as a literal address. -/

namespace Sys2Proof.Machine

/-- param(k): the parameter cell at ip + k, an integer address never reduced (40_dispatch.md R82). -/
def State.param (s : State) (k : Nat) : Except Raise Word := s.memRead (s.ip.toNat + k)

/-- val(k) for a value slot with a given effective mode (40_dispatch.md R83; 30_encoding.md R59). -/
def State.val (s : State) (k : Nat) (m : Mode) : Except Raise Word := do
  let p ← s.param k
  match m with
  | .immediate => return p
  | .position => s.memRead p.toInt

/-- dst(k) for a forced slot: the parameter cell itself, never dereferenced (40_dispatch.md R84). -/
def State.dst (s : State) (k : Nat) : Except Raise Int := do
  let p ← s.param k
  return p.toInt

end Sys2Proof.Machine
end

