-- ==== Sys2Proof/Machine/Sequencer.lean ====
section
/-! DEFINITION. The order of accesses that the handlers of one shape share (40_dispatch.md R85): two values and a
destination with one write at the end, and two values with a conditional jump. -/

namespace Sys2Proof.Machine

/-- Two values, a destination, the ALU, the one write, ip + 4: the order of ADD, MUL, LT and EQ
(40_dispatch.md R85, R87). -/
def State.writeResult (s : State) (f : Fields) (alu : Word → Word → Except Raise Word) :
    Host.Outcome State Fault Refusal :=
  complete s do
    let a ← s.val 1 f.modes.s1
    let b ← s.val 2 f.modes.s2
    let d ← s.dst 3
    let r ← alu a b
    let t ← s.memWrite d r
    return t.advance 4

/-- A condition and a target, both resolved, then the jump or ip + 3: the order of JT and JF (40_dispatch.md R85,
R87; 43_jumps.md R104, R105). -/
def State.jumpWhen (s : State) (f : Fields) (taken : Word → Bool) : Host.Outcome State Fault Refusal :=
  complete s do
    let c ← s.val 1 f.modes.s1
    let t ← s.val 2 f.modes.s2
    if taken c then s.jumpTo t else return s.advance 3

end Sys2Proof.Machine
end

