-- ==== Sys2Proof/Machine/Arithmetic.lean ====
section
/-! DEFINITION. ADD and MUL (41_arithmetic.md). -/

namespace Sys2Proof.Machine

/-- ADD (41_arithmetic.md R93). -/
def execAdd (f : Fields) (s : State) : Host.Outcome State Fault Refusal :=
  s.writeResult f (aluAdd s.params)

/-- MUL (41_arithmetic.md R94). -/
def execMul (f : Fields) (s : State) : Host.Outcome State Fault Refusal :=
  s.writeResult f (aluMul s.params)

end Sys2Proof.Machine
end

