-- ==== Sys2Proof/Machine/Compare.lean ====
section
/-! DEFINITION. LT and EQ (44_compare.md). -/

namespace Sys2Proof.Machine

/-- LT (44_compare.md R108). -/
def execLt (f : Fields) (s : State) : Host.Outcome State Fault Refusal :=
  s.writeResult f fun a b => .ok (aluLt a b)

/-- EQ (44_compare.md R109). -/
def execEq (f : Fields) (s : State) : Host.Outcome State Fault Refusal :=
  s.writeResult f fun a b => .ok (aluEq a b)

end Sys2Proof.Machine
end

