-- ==== Sys2Proof/Machine/Halt.lean ====
section
/-! DEFINITION. HALT (45_halt.md). -/

namespace Sys2Proof.Machine

/-- HALT: the run state becomes Halted, ip stays, no cell is read (45_halt.md R111). -/
def execHalt (_f : Fields) (s : State) : Host.Outcome State Fault Refusal :=
  .next { s with runState := .halted }

end Sys2Proof.Machine
end

