-- ==== Sys2Proof/Machine/InputOutput.lean ====
section
/-! DEFINITION. IN and OUT (42_io.md). -/

namespace Sys2Proof.Machine

/-- The destination of IN: its parameter cell, bounds-checked before the request (42_io.md R98). -/
def State.inputDst (s : State) : Except Raise Int := do
  let d ← s.dst 1
  s.checkWrite d
  return d

/-- IN (42_io.md R98). No slot of IN is a value slot, so its modes are read by no rule (30_encoding.md R62). -/
def execIn (_f : Fields) (s : State) : Host.Outcome State Fault Refusal :=
  match s.inputDst with
  | .error r => .next (s.raise r)
  | .ok d =>
    match s.inRead with
    | none => .fault .inputUnanswered
    | some (.value v, t) => complete t do
        let u ← t.memWrite d v
        return u.advance 2
    | some (.endOfData, t) => .next (t.raise (ioError .inputExhausted))
    | some (.malformed, t) => .next (t.raise (ioError .inputMalformed))

/-- OUT (42_io.md R99). -/
def execOut (f : Fields) (s : State) : Host.Outcome State Fault Refusal :=
  match s.val 1 f.modes.s1 with
  | .error r => .next (s.raise r)
  | .ok v =>
    match s.outWrite v with
    | (.accepted, t) => .next (t.advance 2)
    | (.rejected, t) => .next (t.raise (ioError .outputRejected))

end Sys2Proof.Machine
end

