-- ==== Sys2Proof/Machine/Jumps.lean ====
section
/-! DEFINITION. JT and JF (43_jumps.md). -/

namespace Sys2Proof.Machine

/-- JT: jump when the condition is not 0 (43_jumps.md R104). -/
def execJt (f : Fields) (s : State) : Host.Outcome State Fault Refusal :=
  s.jumpWhen f fun c => c != 0#64

/-- JF: jump when the condition is 0 (43_jumps.md R105). -/
def execJf (f : Fields) (s : State) : Host.Outcome State Fault Refusal :=
  s.jumpWhen f fun c => c == 0#64

end Sys2Proof.Machine
end

