-- ==== Sys2Proof/Machine/Dispatch.lean ====
section
/-! DEFINITION. The opcode dispatch: an exhaustive match with one handler for each opcode and no default arm
(40_dispatch.md R81). -/

namespace Sys2Proof.Machine

def exec (i : Instr) (s : State) : Host.Outcome State Fault Refusal :=
  match i with
  | .add f => Sys2Proof.Machine.execAdd f s
  | .mul f => Sys2Proof.Machine.execMul f s
  | .input f => Sys2Proof.Machine.execIn f s
  | .output f => Sys2Proof.Machine.execOut f s
  | .jt f => Sys2Proof.Machine.execJt f s
  | .jf f => Sys2Proof.Machine.execJf f s
  | .lt f => Sys2Proof.Machine.execLt f s
  | .eq f => Sys2Proof.Machine.execEq f s
  | .halt f => Sys2Proof.Machine.execHalt f s

end Sys2Proof.Machine
end

