-- ==== Sys2Proof/Machine/Step.lean ====
section
/-! DEFINITION. The step (40_dispatch.md R76 to R80), and how the host's check places an instruction where the next
step fetches. -/

namespace Sys2Proof.Machine

/-- One step: enabled iff Running; fetch and decode, then the handler; a raise before it is failure entry
(40_dispatch.md R77, R78). -/
def step (s : State) : Host.Outcome State Fault Refusal :=
  match s.runState with
  | .running =>
    match s.fetchInstr with
    | .ok i => exec i s
    | .error r => .next (s.raise r)
  | .halted => .fault .runEnded
  | .failed => .fault .runEnded

/-- The state with an instruction of up to four cells, given as one number, at ip: memory reaches at least to its
end, and the run is Running, as a fetch needs (log entry 7). -/
def State.withFetchWord (s : State) (nbits w : Nat) : State :=
  { s with
    mem := Memory.load { s.mem with len := max s.mem.len (s.ip.toNat + 4) } s.ip.toNat
      [tableCell nbits w 0, tableCell nbits w 1, tableCell nbits w 2, tableCell nbits w 3]
    runState := .running
    err := ErrRecord.none }

end Sys2Proof.Machine
end

