-- ==== Sys2Proof/Machine/Assembly.lean ====
section
/-! DEFINITION. The spec's assembly notation (30_encoding.md R71 to R74): lines, labels, the canonical encoding and
the disassembly form. It is notation only (decision D21); no step uses it. -/

namespace Sys2Proof.Machine

/-- A value operand as it is written, `[n]` or `#n` (30_encoding.md R71). -/
inductive AsmOperand (α : Type) where
  | position (n : α)
  | immediate (n : α)
  deriving DecidableEq, Repr

/-- A line: an instruction or a data cell; there are no pseudo-instructions (30_encoding.md R71, R73). -/
inductive AsmLine (α : Type) where
  | add (a b : AsmOperand α) (dst : α)
  | mul (a b : AsmOperand α) (dst : α)
  | input (dst : α)
  | output (a : AsmOperand α)
  | jt (cond target : AsmOperand α)
  | jf (cond target : AsmOperand α)
  | lt (a b : AsmOperand α) (dst : α)
  | eq (a b : AsmOperand α) (dst : α)
  | halt
  | word (n : α)
  deriving DecidableEq, Repr

/-- The mode digit of a written operand (30_encoding.md R72). -/
def AsmOperand.modeDigit {α : Type} : AsmOperand α → Nat
  | .position _ => 0
  | .immediate _ => 1

/-- The n of a written operand. -/
def AsmOperand.number {α : Type} : AsmOperand α → α
  | .position n => n
  | .immediate n => n

/-- The canonical instruction word: no digit in a destination or unused slot (30_encoding.md R72). -/
def canonicalWord (op : Opcode) (m1 m2 : Nat) : Word := BitVec.ofNat 64 (wordNumber op ⟨m1, m2, 0⟩)

/-- The cells of a line: the instruction word, then its operands in slot order (30_encoding.md R72). -/
def AsmLine.cells : AsmLine Word → List Word
  | .add a b d => [canonicalWord .add a.modeDigit b.modeDigit, a.number, b.number, d]
  | .mul a b d => [canonicalWord .mul a.modeDigit b.modeDigit, a.number, b.number, d]
  | .input d => [canonicalWord .input 0 0, d]
  | .output a => [canonicalWord .output a.modeDigit 0, a.number]
  | .jt c t => [canonicalWord .jt c.modeDigit t.modeDigit, c.number, t.number]
  | .jf c t => [canonicalWord .jf c.modeDigit t.modeDigit, c.number, t.number]
  | .lt a b d => [canonicalWord .lt a.modeDigit b.modeDigit, a.number, b.number, d]
  | .eq a b d => [canonicalWord .eq a.modeDigit b.modeDigit, a.number, b.number, d]
  | .halt => [canonicalWord .halt 0 0]
  | .word n => [n]

/-- The number of cells of a line. -/
def AsmLine.size {α : Type} : AsmLine α → Nat
  | .add _ _ _ => 4
  | .mul _ _ _ => 4
  | .input _ => 2
  | .output _ => 2
  | .jt _ _ => 3
  | .jf _ _ => 3
  | .lt _ _ _ => 4
  | .eq _ _ _ => 4
  | .halt => 1
  | .word _ => 1

/-- A number or a label, where a line names one (30_encoding.md R71). -/
inductive AsmRef where
  | number (n : Word)
  | label (name : String)
  deriving DecidableEq, Repr

/-- A statement of a program: a label, or a line (30_encoding.md R71). -/
inductive AsmStmt where
  | label (name : String)
  | line (l : AsmLine AsmRef)
  deriving DecidableEq, Repr

/-- The labels of a program that starts at address a; a label stands for the address of the next cell
(30_encoding.md R71). -/
def labelsFrom (a : Nat) : List AsmStmt → List (String × Nat)
  | [] => []
  | .label name :: rest => (name, a) :: labelsFrom a rest
  | .line l :: rest => labelsFrom (a + l.size) rest

/-- The value of a reference; none for a label that the table does not have. -/
def resolveRef (labels : List (String × Nat)) : AsmRef → Option Word
  | .number n => some n
  | .label name => (labels.lookup name).map (BitVec.ofNat 64)

/-- An operand with its reference resolved. -/
def AsmOperand.resolve (labels : List (String × Nat)) : AsmOperand AsmRef → Option (AsmOperand Word)
  | .position n => (resolveRef labels n).map .position
  | .immediate n => (resolveRef labels n).map .immediate

/-- A line with its references resolved. -/
def AsmLine.resolve (labels : List (String × Nat)) : AsmLine AsmRef → Option (AsmLine Word)
  | .add a b d => do return .add (← a.resolve labels) (← b.resolve labels) (← resolveRef labels d)
  | .mul a b d => do return .mul (← a.resolve labels) (← b.resolve labels) (← resolveRef labels d)
  | .input d => do return .input (← resolveRef labels d)
  | .output a => do return .output (← a.resolve labels)
  | .jt c t => do return .jt (← c.resolve labels) (← t.resolve labels)
  | .jf c t => do return .jf (← c.resolve labels) (← t.resolve labels)
  | .lt a b d => do return .lt (← a.resolve labels) (← b.resolve labels) (← resolveRef labels d)
  | .eq a b d => do return .eq (← a.resolve labels) (← b.resolve labels) (← resolveRef labels d)
  | .halt => some .halt
  | .word n => do return .word (← resolveRef labels n)

/-- The cells of the lines of a program under a table of labels. -/
def assembleWith (labels : List (String × Nat)) : List AsmStmt → Option (List Word)
  | [] => some []
  | .label _ :: rest => assembleWith labels rest
  | .line l :: rest => do return (← l.resolve labels).cells ++ (← assembleWith labels rest)

/-- The image of a program; none where a label is used and not defined, or defined twice (log entry 14). -/
def assemble (prog : List AsmStmt) : Option (List Word) :=
  let labels := labelsFrom 0 prog
  if (labels.map Prod.fst).Nodup then assembleWith labels prog else none

/-- A parameter cell as an operand of a mode (30_encoding.md R74). -/
def asmOperand : Mode → Word → AsmOperand Word
  | .position, n => .position n
  | .immediate, n => .immediate n

/-- The line of a decoded instruction and the cells after its word; none where a parameter cell is missing
(30_encoding.md R74; log entry 14). -/
def disassembleInstr : Instr → List Word → Option (AsmLine Word)
  | .add f, a :: b :: d :: _ => some (.add (asmOperand f.modes.s1 a) (asmOperand f.modes.s2 b) d)
  | .mul f, a :: b :: d :: _ => some (.mul (asmOperand f.modes.s1 a) (asmOperand f.modes.s2 b) d)
  | .input _, d :: _ => some (.input d)
  | .output f, a :: _ => some (.output (asmOperand f.modes.s1 a))
  | .jt f, c :: t :: _ => some (.jt (asmOperand f.modes.s1 c) (asmOperand f.modes.s2 t))
  | .jf f, c :: t :: _ => some (.jf (asmOperand f.modes.s1 c) (asmOperand f.modes.s2 t))
  | .lt f, a :: b :: d :: _ => some (.lt (asmOperand f.modes.s1 a) (asmOperand f.modes.s2 b) d)
  | .eq f, a :: b :: d :: _ => some (.eq (asmOperand f.modes.s1 a) (asmOperand f.modes.s2 b) d)
  | .halt _, _ => some .halt
  | .add _, _ => none
  | .mul _, _ => none
  | .input _, _ => none
  | .output _, _ => none
  | .jt _, _ => none
  | .jf _, _ => none
  | .lt _, _ => none
  | .eq _, _ => none

/-- The line at the head of a list of cells; an illegal word is a data cell (30_encoding.md R74). -/
def disassemble (p : Params) : List Word → Option (AsmLine Word)
  | [] => none
  | raw :: rest =>
    match decode p raw with
    | .ok i => disassembleInstr i rest
    | .error _ => some (.word raw)

/-- A number as it is written, in decimal with an optional `-` (30_encoding.md R71). -/
def numberText (n : Word) : String := toString n.toInt

/-- A value operand as it is written (30_encoding.md R71). -/
def AsmOperand.text : AsmOperand Word → String
  | .position n => "[" ++ numberText n ++ "]"
  | .immediate n => "#" ++ numberText n

/-- A line as it is written (30_encoding.md R71, R74). -/
def AsmLine.text : AsmLine Word → String
  | .add a b d => "ADD " ++ a.text ++ ", " ++ b.text ++ ", " ++ numberText d
  | .mul a b d => "MUL " ++ a.text ++ ", " ++ b.text ++ ", " ++ numberText d
  | .input d => "IN " ++ numberText d
  | .output a => "OUT " ++ a.text
  | .jt c t => "JT " ++ c.text ++ ", " ++ t.text
  | .jf c t => "JF " ++ c.text ++ ", " ++ t.text
  | .lt a b d => "LT " ++ a.text ++ ", " ++ b.text ++ ", " ++ numberText d
  | .eq a b d => "EQ " ++ a.text ++ ", " ++ b.text ++ ", " ++ numberText d
  | .halt => "HALT"
  | .word n => ".word " ++ numberText n

end Sys2Proof.Machine
end

