-- ==== Sys2Proof/Machine/Status.lean ====
section
/-! DEFINITION. What the host reads: the codes and the read-only status view (10_state.md R26, R28 to R30;
60_exceptions.md R113 to R117), the observation of an ended run and its result (70_reset_and_hazards.md R136 to
R138). -/

namespace Sys2Proof.Machine

/-- The codes of the run states (10_state.md R26). -/
def RunState.code : RunState → Nat
  | .running => 0
  | .halted => 1
  | .failed => 2

/-- The error kinds (10_state.md R28). -/
inductive ErrKind where
  | noError
  | decodeError
  | addressError
  | ioError
  | overflowError
  deriving DecidableEq, Repr

/-- err.kind (10_state.md R28). -/
def Cause.kind : Cause → ErrKind
  | .noError => .noError
  | .decode _ => .decodeError
  | .address _ => .addressError
  | .io _ => .ioError
  | .overflow _ => .overflowError

/-- The KIND codes (60_exceptions.md R113). -/
def ErrKind.code : ErrKind → Nat
  | .noError => 0
  | .decodeError => 1
  | .addressError => 2
  | .ioError => 3
  | .overflowError => 4

/-- The SUB codes (60_exceptions.md R114 to R117); 0 where there is no error (10_state.md R29). -/
def Cause.sub : Cause → Nat
  | .noError => 0
  | .decode .badOpcode => 0
  | .decode .badMode => 1
  | .decode .highDigits => 2
  | .decode .negativeWord => 3
  | .address .fetch => 0
  | .address .read => 1
  | .address .write => 2
  | .address .jump => 3
  | .io .inputExhausted => 0
  | .io .inputMalformed => 1
  | .io .outputRejected => 2
  | .overflow .add => 0
  | .overflow .multiply => 1

/-- STATUS (10_state.md R29). -/
def State.status (s : State) : Word :=
  BitVec.ofNat 64
    (s.runState.code + 4 * s.err.cause.kind.code + 32 * s.err.cause.sub + 128 * s.err.slot.val)

/-- ERR_VALUE, an integer (10_state.md R29). -/
def State.errValue (s : State) : Int := s.err.value

/-- ERR_AT (10_state.md R29). -/
def State.errAt (s : State) : Word := s.err.atIp

/-- IP (10_state.md R29). -/
def State.ipView (s : State) : Word := s.ip

/-- The host may read a cell whenever the run is not Running (10_state.md R30; 20_memory.md R45). -/
def State.hostReadCell (s : State) (a : Nat) : Option Word :=
  if s.runState = .running then none else if a < s.mem.len then some (s.mem.get a) else none

/-- A run has ended iff it is Halted or Failed (70_reset_and_hazards.md R136). -/
def State.ended (s : State) : Bool := s.runState = .halted || s.runState = .failed

/-- The observation of an ended run (70_reset_and_hazards.md R137). -/
structure Observation where
  runState : RunState
  err : ErrRecord
  ip : Word
  mem : Memory
  out : List Word
  deriving DecidableEq, Repr

/-- What the host observes of a run, once it has ended (70_reset_and_hazards.md R137). -/
def State.observation (s : State) : Option Observation :=
  if s.ended then some ⟨s.runState, s.err, s.ip, s.mem, s.out⟩ else none

/-- The result of an ended run (70_reset_and_hazards.md R138): the "answer" cell 0 and the output of a successful
run, or the typed failure. -/
inductive RunResult where
  | success (answer : Option Word) (out : List Word)
  | failure (err : ErrRecord)
  deriving DecidableEq, Repr

/-- The result of a run, none while it goes on (70_reset_and_hazards.md R138). -/
def State.result (s : State) : Option RunResult :=
  match s.runState with
  | .running => none
  | .halted => some (.success (s.hostReadCell 0) s.out)
  | .failed => some (.failure s.err)

end Sys2Proof.Machine
end

