-- ==== Sys2Proof/Safety.lean ====
section
/-! DEFINITION. The terms claims use: what a cell or an operand holds, said by addresses alone and not through the
handlers' own reads; a failed run's state; the invariant of a run. -/

namespace Sys2Proof.Machine

/-- a is a valid address and its cell holds v (20_memory.md R35). -/
abbrev State.CellIs (s : State) (a : Int) (v : Word) : Prop := s.mem.valid a ∧ s.mem.get a.toNat = v

/-- The value operand of slot k under a mode is v: the parameter cell at ip + k, or the cell it addresses
(40_dispatch.md R83). -/
def State.OperandIs (s : State) (k : Nat) (m : Mode) (v : Word) : Prop :=
  match m with
  | .immediate => s.CellIs (s.ip.toNat + k) v
  | .position => ∃ p, s.CellIs (s.ip.toNat + k) p ∧ s.CellIs p.toInt v

/-- The first access that fails in resolving the value slot k under a mode is at address a: the parameter cell, or
the cell it addresses (40_dispatch.md R82, R83). -/
def State.OperandFaults (s : State) (k : Nat) (m : Mode) (a : Int) : Prop :=
  (a = s.ip.toNat + k ∧ ¬ s.mem.valid a) ∨
    (m = .position ∧ ∃ p, s.CellIs (s.ip.toNat + k) p ∧ a = p.toInt ∧ ¬ s.mem.valid a)

/-- A slot of this class has its digit checked: a value slot, or an unused one under CHECK_UNUSED_MODE_DIGITS
(30_encoding.md R60). -/
def Checked (p : Params) (c : SlotClass) : Prop := c = .value ∨ (c = .unused ∧ p.checkUnusedModeDigits = true)

/-- The mode of a slot agrees with its class and its digit: forced Immediate, or what the digit of a value slot
stands for (30_encoding.md R59, R61). -/
def ModeFits (c : SlotClass) (d : Nat) (m : Mode) : Prop :=
  (c = .forced → m = .immediate) ∧ (c = .value → (d = 0 ∧ m = .position) ∨ (d = 1 ∧ m = .immediate))

/-- t stands where s stood, in the same condition, or its run has failed at s with memory and ip as they were. -/
def GoesOnOrFails (s t : State) : Prop :=
  (t.runState = s.runState ∧ t.err = s.err) ∨
    (t.runState = .failed ∧ t.err.cause ≠ .noError ∧ t.err.atIp = s.ip ∧ t.mem = s.mem ∧ t.ip = s.ip)

/-- The state in which a run that stood at s has failed (60_exceptions.md R118). -/
def State.failedWith (s : State) (c : Cause) (slot : Fin 4) (value : Int) : State :=
  { s with runState := .failed, err := { cause := c, slot := slot, value := value, atIp := s.ip } }

/-- The error record agrees with the run state (10_state.md R28): none until the run fails; then an error, at ip,
with a value in range and a slot only for a bad mode digit. -/
structure State.ErrOk (s : State) : Prop where
  noneUntilFailed : s.runState ≠ .failed → s.err = ErrRecord.none
  errorWhenFailed : s.runState = .failed → s.err.cause ≠ .noError
  atIsIp : s.runState = .failed → s.err.atIp = s.ip
  valueLow : -9223372036854775808 ≤ s.err.value
  valueHigh : s.err.value ≤ 9223372036854775811
  slotOnlyBadMode : s.err.slot ≠ 0 ↔ s.err.cause = .decode .badMode

/-- The invariant of a run: canonical memory of at most 2^63 cells (00_scope.md R7), an ip that has not wrapped
(10_state.md R23), and an error record that agrees with the run state (R28). -/
structure State.Inv (s : State) : Prop where
  memWf : s.mem.wf = true
  memLen : s.mem.len ≤ maxMemLen
  ipBound : s.ip.toNat ≤ 9223372036854775811
  errOk : s.ErrOk

end Sys2Proof.Machine
end

