-- ==== Sys2Proof/WellFormed.lean ====
section
/-! DEFINITION. Which terms of `Instr` the decoder can yield: the digits are decimal digits, a checked digit is
0 or 1, and the modes are the effective modes of the digits (30_encoding.md R60 to R63). -/

namespace Sys2Proof

/-- Each of the three slots holds one decimal digit (30_encoding.md R62). -/
def digitsInRange (d : Slots Nat) : Bool := d.s1 < 10 && d.s2 < 10 && d.s3 < 10

/-- The modes are the effective modes of the digits, so no checked digit is illegal (30_encoding.md R62). -/
def modesAgree (p : Params) (op : Opcode) (f : Fields) : Bool :=
  effectiveMode p op.classes.s1 f.digits.s1 = some f.modes.s1 &&
    effectiveMode p op.classes.s2 f.digits.s2 = some f.modes.s2 &&
      effectiveMode p op.classes.s3 f.digits.s3 = some f.modes.s3

/-- A well-formed instruction under the parameters p. -/
def WellFormed (p : Params) (i : Instr) : Bool :=
  digitsInRange i.fields.digits && modesAgree p i.opcode i.fields

end Sys2Proof
end

