-- ==== Sys2Proof/Certificates/Slice0/Obligations.lean ====
section
/-! DEFINITION. The statements for the provers. Where a docstring says "the spec's own decision" or names a log
entry, the clause rests on a choice and not on the source. -/

open Sys2Proof Sys2Proof.Machine

/-! Encoding. -/

/-- Decoding the encoded word of a well-formed instruction gives it back, every digit at every value the encoding
admits, under every parameter setting (30_encoding.md sections 1, 4, 5). -/
def Obligations.DecodeInvertsEncode : Prop :=
  ∀ (p : Params) (i : Instr), WellFormed p i = true → decode p (encode i) = .ok i

/-- The three slots' digits of a decoded word that is not negative: its hundreds, thousands and ten-thousands, 0 where
the word has none (R58). -/
def Obligations.DecodedDigitsAreTheWordsDigits : Prop :=
  ∀ (p : Params) (w : Word) (i : Instr), 0 ≤ w.toInt → decode p w = .ok i →
    i.fields.digits = ⟨w.toNat / 100 % 10, w.toNat / 1000 % 10, w.toNat / 10000 % 10⟩

/-- What the decoder yields is well formed, and each slot's mode is the one its class and digit give. -/
def Obligations.DecodedModesFollowClassAndDigit : Prop :=
  ∀ (p : Params) (w : Word) (i : Instr), decode p w = .ok i →
    WellFormed p i = true ∧
      ModeFits i.opcode.classes.s1 i.fields.digits.s1 i.fields.modes.s1 ∧
      ModeFits i.opcode.classes.s2 i.fields.digits.s2 i.fields.modes.s2 ∧
      ModeFits i.opcode.classes.s3 i.fields.digits.s3 i.fields.modes.s3

/-- The illegal words are exactly these: negative, of an unknown opcode, with a checked digit above 1, or with high
digits where they are a fault (30_encoding.md section 6; negative words are the spec's own decision D4, log entry
9, the opcode numbers 5, 7, 8 log entry 8). -/
def Obligations.IllegalWordsAreExactlyThese : Prop :=
  ∀ (p : Params) (w : Word),
    (∃ e, decode p w = .error e) ↔
      w.toInt < 0 ∨ w.toNat % 100 ∉ [1, 2, 3, 4, 5, 6, 7, 8, 99] ∨
      (∃ op : Opcode, op.number = w.toNat % 100 ∧
        ((Checked p op.classes.s1 ∧ 1 < w.toNat / 100 % 10) ∨
          (Checked p op.classes.s2 ∧ 1 < w.toNat / 1000 % 10) ∨
          (Checked p op.classes.s3 ∧ 1 < w.toNat / 10000 % 10))) ∨
      (p.highDigits = .fault ∧ 100000 ≤ w.toNat)

/-- Which DecodeError a word gets: the sign first, then the opcode, then slots 1, 2, 3, then the high digits (the
spec's own decision D7, log entry 9). -/
def Obligations.FirstDecodeCheckNamesTheError : Prop :=
  ∀ (p : Params) (w : Word),
    (w.toInt < 0 → decode p w = .error ⟨.negativeWord, 0, w.toInt⟩) ∧
    (0 ≤ w.toInt → w.toNat % 100 ∉ [1, 2, 3, 4, 5, 6, 7, 8, 99] → decode p w = .error ⟨.badOpcode, 0, w.toInt⟩) ∧
    ∀ op : Opcode, 0 ≤ w.toInt → w.toNat % 100 = op.number →
      ((Checked p op.classes.s1 ∧ 1 < w.toNat / 100 % 10) → decode p w = .error ⟨.badMode, 1, w.toInt⟩) ∧
      (¬ (Checked p op.classes.s1 ∧ 1 < w.toNat / 100 % 10) →
        (Checked p op.classes.s2 ∧ 1 < w.toNat / 1000 % 10) → decode p w = .error ⟨.badMode, 2, w.toInt⟩) ∧
      (¬ (Checked p op.classes.s1 ∧ 1 < w.toNat / 100 % 10) →
        ¬ (Checked p op.classes.s2 ∧ 1 < w.toNat / 1000 % 10) →
        (Checked p op.classes.s3 ∧ 1 < w.toNat / 10000 % 10) → decode p w = .error ⟨.badMode, 3, w.toInt⟩) ∧
      (¬ (Checked p op.classes.s1 ∧ 1 < w.toNat / 100 % 10) →
        ¬ (Checked p op.classes.s2 ∧ 1 < w.toNat / 1000 % 10) →
        ¬ (Checked p op.classes.s3 ∧ 1 < w.toNat / 10000 % 10) →
        p.highDigits = .fault → 100000 ≤ w.toNat → decode p w = .error ⟨.highDigits, 0, w.toInt⟩)

/-- A forced slot's digit, 0 to 9, gives the same instruction: slot 3 of ADD, MUL, LT, EQ, slot 1 of IN. The mode is
Immediate and the instruction runs alike in every state (30_encoding.md section 4). -/
def Obligations.ForcedSlotDigitIsIgnored : Prop :=
  ∀ (p : Params) (w w' : Word) (i : Instr), decode p w = .ok i → 0 ≤ w'.toInt →
    ((i.opcode = .add ∨ i.opcode = .mul ∨ i.opcode = .lt ∨ i.opcode = .eq) ∧
        w.toNat % 10000 = w'.toNat % 10000 ∧ w.toNat / 100000 = w'.toNat / 100000 ∨
      i.opcode = .input ∧ w.toNat % 100 = w'.toNat % 100 ∧ w.toNat / 1000 = w'.toNat / 1000) →
    ∃ i', decode p w' = .ok i' ∧ i'.opcode = i.opcode ∧ i'.fields.modes = i.fields.modes ∧
      (i.opcode = .input → i'.fields.modes.s1 = .immediate) ∧
      (i.opcode ≠ .input → i'.fields.modes.s3 = .immediate) ∧ ∀ s, exec i' s = exec i s

/-- With HIGH_DIGITS = Ignore, digits above the third mode digit have no effect (the spec's own decision D5, log
entry 1). -/
def Obligations.HighDigitsHaveNoEffectWhenIgnored : Prop :=
  ∀ (p : Params) (w w' : Word) (i : Instr), p.highDigits = .ignore → 0 ≤ w'.toInt →
    w.toNat % 100000 = w'.toNat % 100000 → decode p w = .ok i → decode p w' = .ok i

/-- The length in cells depends on the opcode's number alone: 4, 2, 3 or 1 (the numbers 5, 7, 8 are log entry 8). -/
def Obligations.LengthFollowsFromTheOpcodeNumber : Prop :=
  ∀ (p : Params) (w : Word) (i : Instr), decode p w = .ok i →
    (w.toNat % 100 ∈ [1, 2, 7, 8] ∧ i.opcode.length = 4) ∨ (w.toNat % 100 ∈ [3, 4] ∧ i.opcode.length = 2) ∨
      (w.toNat % 100 ∈ [5, 6] ∧ i.opcode.length = 3) ∨ (w.toNat % 100 = 99 ∧ i.opcode.length = 1)

/-- One word of each row of the opcode table, written out in its decimal digits, decodes to the instruction it stands
for. The clauses for 105, 107 and 10108 rest on the opcode numbers 5, 7 and 8, which are a choice and not the source's
(decision D3, log entry 8). -/
def Obligations.SampleWordsDecode : Prop :=
  decode Params.default 1001#64 = .ok (.add ⟨⟨0, 1, 0⟩, ⟨.position, .immediate, .immediate⟩⟩) ∧
  decode Params.default 21101#64 = .ok (.add ⟨⟨1, 1, 2⟩, ⟨.immediate, .immediate, .immediate⟩⟩) ∧
  decode Params.default 1002#64 = .ok (.mul ⟨⟨0, 1, 0⟩, ⟨.position, .immediate, .immediate⟩⟩) ∧
  decode Params.default 203#64 = .ok (.input ⟨⟨2, 0, 0⟩, ⟨.immediate, .position, .position⟩⟩) ∧
  decode Params.default 104#64 = .ok (.output ⟨⟨1, 0, 0⟩, ⟨.immediate, .position, .position⟩⟩) ∧
  decode Params.default 105#64 = .ok (.jt ⟨⟨1, 0, 0⟩, ⟨.immediate, .position, .position⟩⟩) ∧
  decode Params.default 1006#64 = .ok (.jf ⟨⟨0, 1, 0⟩, ⟨.position, .immediate, .position⟩⟩) ∧
  decode Params.default 107#64 = .ok (.lt ⟨⟨1, 0, 0⟩, ⟨.immediate, .position, .immediate⟩⟩) ∧
  decode Params.default 10108#64 = .ok (.eq ⟨⟨1, 0, 1⟩, ⟨.immediate, .position, .immediate⟩⟩) ∧
  decode Params.default 99#64 = .ok (.halt ⟨⟨0, 0, 0⟩, ⟨.position, .position, .position⟩⟩)

/-- Disassembling the cells of an instruction's line gives the line back, whatever follows and under every parameter
setting (the spec's own notation, decision D21). -/
def Obligations.DisassemblyInvertsTheCanonicalEncoding : Prop :=
  ∀ (p : Params) (l : AsmLine Word) (rest : List Word), (∀ n, l ≠ .word n) →
    disassemble p (l.cells ++ rest) = some l

/-- In an assembled program a label stands for the address of the next cell: the number of cells before it (the
spec's own notation, decision D21; log entry 14). -/
def Obligations.LabelStandsForTheNextCell : Prop :=
  ∀ (before after : List AsmStmt) (name : String) (cells : List Word),
    assemble (before ++ .label name :: after) = some cells →
    ∃ first rest, cells = first ++ rest ∧
      assembleWith (labelsFrom 0 (before ++ .label name :: after)) before = some first ∧
      (labelsFrom 0 (before ++ .label name :: after)).lookup name = some first.length

/-! The start of a run and the invariant. -/

/-- The start of a run: MEM_LEN, a copy of the image, ip 0, Running, no error (R131). -/
def Obligations.StartLoadsTheImage : Prop :=
  ∀ (p : Params) (h : IoChannel) (image : List Word), image.length ≤ 9223372036854775808 →
    ∃ s, State.start p h image = .next s ∧ s.mem.len = image.length ∧
      (∀ (a : Nat) (ha : a < image.length), s.mem.get a = image[a]) ∧
      s.ip = 0#64 ∧ s.runState = .running ∧
      s.err = { cause := .noError, slot := 0, value := 0, atIp := 0#64 }

/-- Beside R131's values the start of a run has an empty output and a STATUS of 0 (decision D14, log entry 10), and the
parameters and the host's channel are those given (log entries 1 and 3). -/
def Obligations.StartTakesTheParametersAndTheHost : Prop :=
  ∀ (p : Params) (h : IoChannel) (image : List Word) (s : State), State.start p h image = .next s →
    s.out = [] ∧ s.status = 0#64 ∧ s.params = p ∧ s.channel = h

/-- Seeding changes the seeded cell alone and cannot change MEM_LEN. -/
def Obligations.SeedingChangesOneCell : Prop :=
  ∀ (p : Params) (h : IoChannel) (c : List Word) (a : Nat) (v : Word) (s t : State), a < c.length →
    State.start p h c = .next s → State.start p h (seedImage c a v) = .next t →
    t.mem.len = s.mem.len ∧ ∀ b, t.mem.get b = if b = a then v else s.mem.get b

/-- An image of more than 2^63 cells is refused and no other is (93_implementation_defined.md I14; log entry 11), and
the model's reset state is the start of a run of the empty image (log entry 6). -/
def Obligations.OnlyTooLargeImagesAreRefused : Prop :=
  (∀ (p : Params) (h : IoChannel) (c : List Word),
    State.start p h c = .refused .imageTooLarge ↔ 9223372036854775808 < c.length) ∧
  State.start Params.default IoChannel.default [] = .next State.reset

/-- The model's reset state meets the invariant (its values are log entries 1, 3 and 6). -/
def Obligations.ResetMeetsTheInvariant : Prop := State.reset.Inv

/-- The start of any run meets the invariant. -/
def Obligations.StartMeetsTheInvariant : Prop :=
  ∀ (p : Params) (h : IoChannel) (c : List Word) (s : State), State.start p h c = .next s → s.Inv

/-- Every step keeps the invariant: canonical memory of at most 2^63 cells, an ip that has not wrapped, an error
record that agrees with the run state (10_state.md R23, R28, the spec's own derivation and decision). -/
def Obligations.StepKeepsTheInvariant : Prop :=
  ∀ s t : State, s.Inv → step s = .next t → t.Inv

/-! The step. -/

/-- When the run is Running and the cell at ip decodes to an instruction, which is then well formed, the step is that
instruction's meaning at that state, with nothing around it. -/
def Obligations.StepRunsTheDecodedInstruction : Prop :=
  ∀ (s : State) (i : Instr), s.runState = .running → s.ip.toNat < s.mem.len →
    decode s.params (s.mem.get s.ip.toNat) = .ok i → step s = exec i s

/-- A step at ip >= MEM_LEN raises AddressError with sub-cause Fetch and value ip (R79; what a raise leaves is the
spec's own decision D13, D14, log entry 10). -/
def Obligations.FetchPastTheEndFails : Prop :=
  ∀ s : State, s.runState = .running → s.mem.len ≤ s.ip.toNat →
    step s = .next (s.failedWith (.address .fetch) 0 s.ip.toNat)

/-- A word that does not decode ends the run as Failed, memory and ip unchanged (R80; what the error record holds is
the spec's own decision D14, log entry 10). -/
def Obligations.DecodeFailureEndsTheRun : Prop :=
  ∀ (s : State) (e : DecodeError), s.runState = .running → s.ip.toNat < s.mem.len →
    decode s.params (s.mem.get s.ip.toNat) = .error e →
    step s = .next (s.failedWith (.decode e.cause) e.slot e.value)

/-- A run that has ended takes no step, and a Running one always does unless the host owes IN an answer; no step is
refused (the stops are log entries 4 and 5). -/
def Obligations.RunningRunsStepUnlessTheHostOwesAnAnswer : Prop :=
  ∀ s : State,
    (s.runState = .halted ∨ s.runState = .failed → step s = .fault .runEnded) ∧
    (s.runState = .running →
      (∃ t, step s = .next t) ∨
      (step s = .fault .inputUnanswered ∧ s.channel.answers = [] ∧ s.channel.answersAfter = none ∧
        ∃ f, decode s.params (s.mem.get s.ip.toNat) = .ok (.input f)))

/-- HALT is the only way a run succeeds: a step that ends Halted ran a HALT word, and changed the run state alone
(R112). -/
def Obligations.OnlyHaltSucceeds : Prop :=
  ∀ s t : State, step s = .next t → t.runState = .halted →
    s.runState = .running ∧ s.ip.toNat < s.mem.len ∧
      (∃ f, decode s.params (s.mem.get s.ip.toNat) = .ok (.halt f)) ∧ t = { s with runState := .halted }

/-- A step that fails is precise: memory, ip, output and parameters as before, and an error recorded at ip (failure
entry is the spec's own decision D13, D14, log entry 10). -/
def Obligations.FailureIsPrecise : Prop :=
  ∀ s t : State, step s = .next t → t.runState = .failed →
    t.mem = s.mem ∧ t.ip = s.ip ∧ t.out = s.out ∧ t.params = s.params ∧
      t.err.cause ≠ .noError ∧ t.err.atIp = s.ip

/-- A step that does not fail leaves the error record as it was. -/
def Obligations.OnlyFailureWritesTheErrorRecord : Prop :=
  ∀ s t : State, step s = .next t → t.runState ≠ .failed → t.err = s.err

/-- The ip update of a step that does not fail: +4, +2, the target or +3, and unchanged for HALT, computed from the
ip as fetched (R87). -/
def Obligations.IpUpdateOfEachInstruction : Prop :=
  ∀ (s t : State) (i : Instr), s.runState = .running → s.ip.toNat < s.mem.len →
    decode s.params (s.mem.get s.ip.toNat) = .ok i → step s = .next t → t.runState ≠ .failed →
    match i with
    | .add _ => t.ip = s.ip + 4#64
    | .mul _ => t.ip = s.ip + 4#64
    | .lt _ => t.ip = s.ip + 4#64
    | .eq _ => t.ip = s.ip + 4#64
    | .input _ => t.ip = s.ip + 2#64
    | .output _ => t.ip = s.ip + 2#64
    | .jt f => ∃ c g, s.OperandIs 1 f.modes.s1 c ∧ s.OperandIs 2 f.modes.s2 g ∧
        t.ip = if c ≠ 0#64 then g else s.ip + 3#64
    | .jf f => ∃ c g, s.OperandIs 1 f.modes.s1 c ∧ s.OperandIs 2 f.modes.s2 g ∧
        t.ip = if c = 0#64 then g else s.ip + 3#64
    | .halt _ => t.ip = s.ip

/-- MEM_LEN is fixed for the whole run: no instruction and no step changes it, and a write at or beyond it fails
(R18); the parameters do not change either. -/
def Obligations.MemLenIsFixed : Prop :=
  (∀ (i : Instr) (s t : State), exec i s = .next t → t.mem.len = s.mem.len ∧ t.params = s.params) ∧
  (∀ s t : State, step s = .next t → t.mem.len = s.mem.len ∧ t.params = s.params) ∧
  (∀ (s : State) (a : Int) (v : Word), (s.mem.len : Int) ≤ a →
    s.memWrite a v = .error ⟨.address .write, 0, a⟩)

/-- Only OUT appends to the output, exactly one value, its operand. -/
def Obligations.OnlyOutAppendsOneRecord : Prop :=
  ∀ s t : State, step s = .next t → t.out = s.out ∨
    ∃ f v, decode s.params (s.mem.get s.ip.toNat) = .ok (.output f) ∧ s.OperandIs 1 f.modes.s1 v ∧
      t.out = s.out ++ [v]

/-- Only IN consumes an input answer and only OUT a verdict, at most one a step, oldest first; what the host answers
after its lists never changes (the lists are log entry 3; that a failing request uses up its answer too, log entry
13). -/
def Obligations.OneHostRequestPerInstruction : Prop :=
  ∀ s t : State, step s = .next t →
    t.channel.answersAfter = s.channel.answersAfter ∧ t.channel.verdictsAfter = s.channel.verdictsAfter ∧
    (t.channel = s.channel ∨
      (∃ f, decode s.params (s.mem.get s.ip.toNat) = .ok (.input f) ∧ t.channel.verdicts = s.channel.verdicts ∧
        ∃ a, s.channel.answers = a :: t.channel.answers) ∨
      (∃ f, decode s.params (s.mem.get s.ip.toNat) = .ok (.output f) ∧ t.channel.answers = s.channel.answers ∧
        ∃ a, s.channel.verdicts = a :: t.channel.verdicts))

/-- An instruction other than IN and OUT does not depend on the host or on the output so far: its step from a state
with another channel and another output is the same step. -/
def Obligations.OtherInstructionsDoNotDependOnTheHost : Prop :=
  ∀ (s t : State) (h : IoChannel) (o : List Word),
    (∀ f, decode s.params (s.mem.get s.ip.toNat) ≠ .ok (.input f)) →
    (∀ f, decode s.params (s.mem.get s.ip.toNat) ≠ .ok (.output f)) →
    step s = .next t → step { s with channel := h, out := o } = .next { t with channel := h, out := o }

/-- A write by ADD or IN to the cell that is fetched next is seen by that fetch: the very next step runs the word
just written. -/
def Obligations.WrittenWordRunsNext : Prop :=
  ∀ (s : State) (f : Fields) (i : Instr), s.Inv → s.runState = .running →
    (∀ a b d, s.OperandIs 1 f.modes.s1 a → s.OperandIs 2 f.modes.s2 b → s.CellIs (s.ip.toNat + 3) d →
      d.toInt = s.ip.toNat + 4 → s.mem.valid d.toInt → inI64 (a.toInt + b.toInt) →
      decode s.params (a + b) = .ok i → ∃ t, exec (.add f) s = .next t ∧ step t = exec i t) ∧
    (∀ d v rest, s.CellIs (s.ip.toNat + 1) d → d.toInt = s.ip.toNat + 2 → s.mem.valid d.toInt →
      s.channel.answers = .value v :: rest →
      decode s.params v = .ok i → ∃ t, exec (.input f) s = .next t ∧ step t = exec i t)

/-! Memory. -/

/-- MemRead: the cell at a valid address, AddressError(Read) with that address at any other (R40). -/
def Obligations.MemReadChecksBounds : Prop :=
  ∀ (s : State) (a : Int),
    (0 ≤ a ∧ a < s.mem.len → s.memRead a = .ok (s.mem.get a.toNat)) ∧
    (¬ (0 ≤ a ∧ a < s.mem.len) → s.memRead a = .error ⟨.address .read, 0, a⟩)

/-- MemWrite: at a valid address that one cell changes, no other cell and not MEM_LEN; at any other address
AddressError(Write) with that address (R41). -/
def Obligations.MemWriteChangesOneCell : Prop :=
  ∀ (s : State) (a : Int) (v : Word), s.mem.wf = true →
    (0 ≤ a ∧ a < s.mem.len →
      ∃ t, s.memWrite a v = .ok t ∧ t.memRead a = .ok v ∧ (∀ b, b ≠ a → t.memRead b = s.memRead b) ∧
        t.mem.len = s.mem.len ∧ t.mem.wf = true ∧ t = { s with mem := t.mem }) ∧
    (¬ (0 ≤ a ∧ a < s.mem.len) → s.memWrite a v = .error ⟨.address .write, 0, a⟩)

/-! ADD, MUL, LT, EQ. -/

/-- ADD and MUL: when the exact result is in i64 it is the value written to the destination, and ip moves by 4
(R91). -/
def Obligations.ArithmeticStoresTheExactResult : Prop :=
  ∀ (s : State) (f : Fields) (a b d : Word), s.OperandIs 1 f.modes.s1 a → s.OperandIs 2 f.modes.s2 b →
    s.CellIs (s.ip.toNat + 3) d → s.mem.valid d.toInt →
    (inI64 (a.toInt + b.toInt) → ∃ r : Word, r.toInt = a.toInt + b.toInt ∧
      exec (.add f) s = .next { s with mem := s.mem.set d.toInt.toNat r, ip := s.ip + 4#64 }) ∧
    (inI64 (a.toInt * b.toInt) → ∃ r : Word, r.toInt = a.toInt * b.toInt ∧
      exec (.mul f) s = .next { s with mem := s.mem.set d.toInt.toNat r, ip := s.ip + 4#64 })

/-- ADD and MUL with OVERFLOW = Wrap: the low 64 bits are written, for all operands (the spec's own decision D8, log
entry 1). -/
def Obligations.WrapWritesTheLowBits : Prop :=
  ∀ (s : State) (f : Fields) (a b d : Word), s.params.overflow = .wrap →
    s.OperandIs 1 f.modes.s1 a → s.OperandIs 2 f.modes.s2 b →
    s.CellIs (s.ip.toNat + 3) d → s.mem.valid d.toInt →
    exec (.add f) s = .next { s with mem := s.mem.set d.toInt.toNat (a + b), ip := s.ip + 4#64 } ∧
    exec (.mul f) s = .next { s with mem := s.mem.set d.toInt.toNat (a * b), ip := s.ip + 4#64 }

/-- ADD and MUL with OVERFLOW = Fault: an exact result outside i64 raises OverflowError, before the destination is
checked (the spec's own decisions D8 and D10, log entries 1 and 9). -/
def Obligations.OverflowFaultRaises : Prop :=
  ∀ (s : State) (f : Fields) (a b d : Word), s.params.overflow = .fault →
    s.OperandIs 1 f.modes.s1 a → s.OperandIs 2 f.modes.s2 b → s.CellIs (s.ip.toNat + 3) d →
    (¬ inI64 (a.toInt + b.toInt) → exec (.add f) s = .next (s.failedWith (.overflow .add) 0 0)) ∧
    (¬ inI64 (a.toInt * b.toInt) → exec (.mul f) s = .next (s.failedWith (.overflow .multiply) 0 0))

/-- LT and EQ: exactly 1 or 0, by the signed order and by equality, for all operands; a comparison never fails
(R110). -/
def Obligations.ComparisonStoresOneOrZero : Prop :=
  ∀ (s : State) (f : Fields) (a b d : Word), s.OperandIs 1 f.modes.s1 a → s.OperandIs 2 f.modes.s2 b →
    s.CellIs (s.ip.toNat + 3) d → s.mem.valid d.toInt →
    exec (.lt f) s = .next
      { s with mem := s.mem.set d.toInt.toNat (if a.toInt < b.toInt then 1#64 else 0#64), ip := s.ip + 4#64 } ∧
    exec (.eq f) s = .next
      { s with mem := s.mem.set d.toInt.toNat (if a = b then 1#64 else 0#64), ip := s.ip + 4#64 }

/-- ADD, MUL, LT and EQ: the first missing cell, in the order slot 1, slot 2, destination parameter, is the
AddressError(Read) (the spec's own decision D10, log entry 9). -/
def Obligations.BinaryOperandReadFaults : Prop :=
  ∀ (s : State) (f : Fields), ∀ i ∈ [Instr.add f, Instr.mul f, Instr.lt f, Instr.eq f],
    (∀ x, s.OperandFaults 1 f.modes.s1 x → exec i s = .next (s.failedWith (.address .read) 0 x)) ∧
    (∀ a x, s.OperandIs 1 f.modes.s1 a → s.OperandFaults 2 f.modes.s2 x →
      exec i s = .next (s.failedWith (.address .read) 0 x)) ∧
    (∀ a b, s.OperandIs 1 f.modes.s1 a → s.OperandIs 2 f.modes.s2 b → ¬ s.mem.valid (s.ip.toNat + 3) →
      exec i s = .next (s.failedWith (.address .read) 0 (s.ip.toNat + 3)))

/-- ADD, MUL, LT and EQ: a destination outside memory is the AddressError(Write), once there is a result. -/
def Obligations.BinaryDestinationFault : Prop :=
  ∀ (s : State) (f : Fields) (a b d : Word), s.OperandIs 1 f.modes.s1 a → s.OperandIs 2 f.modes.s2 b →
    s.CellIs (s.ip.toNat + 3) d → ¬ s.mem.valid d.toInt →
    (inI64 (a.toInt + b.toInt) ∨ s.params.overflow = .wrap →
      exec (.add f) s = .next (s.failedWith (.address .write) 0 d.toInt)) ∧
    (inI64 (a.toInt * b.toInt) ∨ s.params.overflow = .wrap →
      exec (.mul f) s = .next (s.failedWith (.address .write) 0 d.toInt)) ∧
    exec (.lt f) s = .next (s.failedWith (.address .write) 0 d.toInt) ∧
    exec (.eq f) s = .next (s.failedWith (.address .write) 0 d.toInt)

/-- The frame of ADD, MUL, LT and EQ: only the cell whose address the destination parameter holds can change; output,
parameters, channel and MEM_LEN do not; the run goes on or has failed at this instruction. -/
def Obligations.BinaryFrame : Prop :=
  ∀ (s t : State) (f : Fields), ∀ i ∈ [Instr.add f, Instr.mul f, Instr.lt f, Instr.eq f],
    s.mem.wf = true → exec i s = .next t →
    (∀ d, s.dst 3 = .ok d → ∀ b : Nat, (b : Int) ≠ d → t.mem.get b = s.mem.get b) ∧
    (∀ r, s.dst 3 = .error r → t.mem = s.mem) ∧
    t.mem.len = s.mem.len ∧ t.out = s.out ∧ t.params = s.params ∧ t.channel = s.channel ∧ GoesOnOrFails s t

/-! IN and OUT. -/

/-- IN stores the host's value at its destination, whether the answer is the oldest of the list (then consumed) or the
host's standing answer, and ip moves by 2 (the list and the standing answer are log entry 3). -/
def Obligations.InputStoresTheHostsValue : Prop :=
  ∀ (s : State) (f : Fields) (d v : Word), s.CellIs (s.ip.toNat + 1) d → s.mem.valid d.toInt →
    (∀ rest, s.channel.answers = .value v :: rest →
      exec (.input f) s = .next { s with
        mem := s.mem.set d.toInt.toNat v, ip := s.ip + 2#64, channel := { s.channel with answers := rest } }) ∧
    (s.channel.answers = [] → s.channel.answersAfter = some (.value v) →
      exec (.input f) s = .next { s with mem := s.mem.set d.toInt.toNat v, ip := s.ip + 2#64 })

/-- IN fails by name: on a missing parameter cell, on a destination outside memory, both without a request (the
spec's own decision D11, log entry 9), and on EndOfData and Malformed. What is left in the list of answers after the
failure is the model's choice (log entries 3 and 13; decision D28 leaves it to the host). -/
def Obligations.InputFailures : Prop :=
  ∀ (s : State) (f : Fields),
    (¬ s.mem.valid (s.ip.toNat + 1) →
      exec (.input f) s = .next (s.failedWith (.address .read) 0 (s.ip.toNat + 1))) ∧
    ∀ d, s.CellIs (s.ip.toNat + 1) d →
      (¬ s.mem.valid d.toInt → exec (.input f) s = .next (s.failedWith (.address .write) 0 d.toInt)) ∧
      (s.mem.valid d.toInt → ∀ rest,
        (s.channel.answers = .endOfData :: rest → exec (.input f) s = .next
          ({ s with channel := { s.channel with answers := rest } }.failedWith (.io .inputExhausted) 0 0)) ∧
        (s.channel.answers = .malformed :: rest → exec (.input f) s = .next
          ({ s with channel := { s.channel with answers := rest } }.failedWith (.io .inputMalformed) 0 0))) ∧
      (s.mem.valid d.toInt → s.channel.answers = [] →
        (s.channel.answersAfter = some .endOfData →
          exec (.input f) s = .next (s.failedWith (.io .inputExhausted) 0 0)) ∧
        (s.channel.answersAfter = some .malformed →
          exec (.input f) s = .next (s.failedWith (.io .inputMalformed) 0 0)))

/-- IN waits for a host that has not answered, with nothing moved, and completes once the host answers with a value
(the wait as a named stop is log entry 4). -/
def Obligations.UnansweredInputWaits : Prop :=
  ∀ (s : State) (f : Fields) (d : Word), s.CellIs (s.ip.toNat + 1) d → s.mem.valid d.toInt →
    s.channel.answers = [] → s.channel.answersAfter = none →
    exec (.input f) s = .fault .inputUnanswered ∧
    ∀ v, exec (.input f) (s.hostAnswersInput (.value v)) =
      .next { s with mem := s.mem.set d.toInt.toNat v, ip := s.ip + 2#64 }

/-- OUT offers its operand; an accepted value is appended to the output and ip moves by 2 (the list of verdicts and
the standing one are log entry 3). -/
def Obligations.OutputAppendsTheAcceptedValue : Prop :=
  ∀ (s : State) (f : Fields) (v : Word), s.OperandIs 1 f.modes.s1 v →
    (∀ rest, s.channel.verdicts = .accepted :: rest →
      exec (.output f) s = .next { s with
        out := s.out ++ [v], ip := s.ip + 2#64, channel := { s.channel with verdicts := rest } }) ∧
    (s.channel.verdicts = [] → s.channel.verdictsAfter = .accepted →
      exec (.output f) s = .next { s with out := s.out ++ [v], ip := s.ip + 2#64 })

/-- OUT always gives a next state, and fails by name: on a missing operand, without an offer, and on a rejected value,
which is not in the output (the spec's own decision D12). What is left in the list of verdicts after the failure is the
model's choice (log entries 3 and 13). -/
def Obligations.OutputFailures : Prop :=
  ∀ (s : State) (f : Fields),
    (∃ t, exec (.output f) s = .next t) ∧
    (∀ x, s.OperandFaults 1 f.modes.s1 x → exec (.output f) s = .next (s.failedWith (.address .read) 0 x)) ∧
    ∀ v, s.OperandIs 1 f.modes.s1 v →
      (∀ rest, s.channel.verdicts = .rejected :: rest → exec (.output f) s = .next
        ({ s with channel := { s.channel with verdicts := rest } }.failedWith (.io .outputRejected) 0 0)) ∧
      (s.channel.verdicts = [] → s.channel.verdictsAfter = .rejected →
        exec (.output f) s = .next (s.failedWith (.io .outputRejected) 0 0))

/-- The frame of IN: only the cell whose address the destination parameter holds can change, and the list of input
answers. -/
def Obligations.InputFrame : Prop :=
  ∀ (s t : State) (f : Fields), s.mem.wf = true → exec (.input f) s = .next t →
    (∀ d, s.dst 1 = .ok d → ∀ b : Nat, (b : Int) ≠ d → t.mem.get b = s.mem.get b) ∧
    (∀ r, s.dst 1 = .error r → t.mem = s.mem) ∧
    t.mem.len = s.mem.len ∧ t.out = s.out ∧ t.params = s.params ∧
    t.channel = { s.channel with answers := t.channel.answers } ∧
    (t.channel.answers = s.channel.answers ∨ ∃ a, s.channel.answers = a :: t.channel.answers) ∧ GoesOnOrFails s t

/-- The frame of OUT: no cell of memory changes, and of the rest only the output and the list of verdicts can. -/
def Obligations.OutputFrame : Prop :=
  ∀ (s t : State) (f : Fields), exec (.output f) s = .next t →
    t.mem = s.mem ∧ t.params = s.params ∧ t.channel = { s.channel with verdicts := t.channel.verdicts } ∧
    (t.channel.verdicts = s.channel.verdicts ∨ ∃ a, s.channel.verdicts = a :: t.channel.verdicts) ∧
    (t.out = s.out ∨ ∃ v, s.OperandIs 1 f.modes.s1 v ∧ t.out = s.out ++ [v]) ∧ GoesOnOrFails s t

/-! JT and JF. -/

/-- A taken jump sets ip to the target: JT on any condition but 0, JF on 0 alone, any target that is not negative.
That a target at or above MEM_LEN is stored too, the run still Running, is the spec's own decision D9 (log entry 9). -/
def Obligations.TakenJumpSetsIp : Prop :=
  ∀ (s : State) (f : Fields) (c g : Word), s.OperandIs 1 f.modes.s1 c → s.OperandIs 2 f.modes.s2 g →
    0 ≤ g.toInt →
    (c ≠ 0#64 → exec (.jt f) s = .next { s with ip := g }) ∧
    (c = 0#64 → exec (.jf f) s = .next { s with ip := g })

/-- A jump that is not taken moves ip by 3, whatever the target, a negative one too. -/
def Obligations.UntakenJumpAdvances : Prop :=
  ∀ (s : State) (f : Fields) (c g : Word), s.OperandIs 1 f.modes.s1 c → s.OperandIs 2 f.modes.s2 g →
    (c = 0#64 → exec (.jt f) s = .next { s with ip := s.ip + 3#64 }) ∧
    (c ≠ 0#64 → exec (.jf f) s = .next { s with ip := s.ip + 3#64 })

/-- JT and JF fail by name: on a missing operand, the target's also when the jump is not taken, and on a negative
target of a taken jump (the spec's own decisions D9 and D10, log entry 9). -/
def Obligations.JumpFailures : Prop :=
  ∀ (s : State) (f : Fields), ∀ i ∈ [Instr.jt f, Instr.jf f],
    (∀ x, s.OperandFaults 1 f.modes.s1 x → exec i s = .next (s.failedWith (.address .read) 0 x)) ∧
    (∀ c x, s.OperandIs 1 f.modes.s1 c → s.OperandFaults 2 f.modes.s2 x →
      exec i s = .next (s.failedWith (.address .read) 0 x)) ∧
    (∀ c g, s.OperandIs 1 f.modes.s1 c → s.OperandIs 2 f.modes.s2 g → g.toInt < 0 →
      (i = .jt f ∧ c ≠ 0#64 ∨ i = .jf f ∧ c = 0#64) →
      exec i s = .next (s.failedWith (.address .jump) 0 g.toInt))

/-- A target at or above MEM_LEN is stored in ip, and the next step's fetch fails with it (the spec's own decision
D9, log entry 9). -/
def Obligations.JumpPastTheEndFailsAtTheNextFetch : Prop :=
  ∀ (s : State) (f : Fields) (c g : Word), s.runState = .running →
    s.OperandIs 1 f.modes.s1 c → s.OperandIs 2 f.modes.s2 g → 0 ≤ g.toInt → (s.mem.len : Int) ≤ g.toInt →
    ∀ i ∈ [Instr.jt f, Instr.jf f], (i = .jt f ∧ c ≠ 0#64 ∨ i = .jf f ∧ c = 0#64) →
    ∃ t, exec i s = .next t ∧ t.ip = g ∧ step t = .next (t.failedWith (.address .fetch) 0 g.toInt)

/-- The frame of JT and JF: nothing but ip changes while the run goes on, and no cell of memory ever. -/
def Obligations.JumpFrame : Prop :=
  ∀ (s t : State) (f : Fields), ∀ i ∈ [Instr.jt f, Instr.jf f], exec i s = .next t →
    t.mem = s.mem ∧ t.out = s.out ∧ t.params = s.params ∧ t.channel = s.channel ∧ GoesOnOrFails s t

/-! HALT. -/

/-- HALT stops the run: the run state becomes Halted and everything else, ip too, is unchanged, in every state
(R111). -/
def Obligations.HaltStopsTheRun : Prop :=
  ∀ (s : State) (f : Fields), exec (.halt f) s = .next { s with runState := .halted }

/-! What the host reads. -/

/-- The fields of STATUS (the spec's own decision D14, log entry 10). -/
def Obligations.StatusFieldsAreReadable : Prop :=
  ∀ s : State, s.status.toNat % 4 = s.runState.code ∧ s.status.toNat / 4 % 8 = s.err.cause.kind.code ∧
    s.status.toNat / 32 % 4 = s.err.cause.sub ∧ s.status.toNat / 128 % 4 = s.err.slot.val ∧
    s.status.toNat < 512

/-- The STATUS words of 95_test_vectors.md: a Halted run, and the failures it lists (the spec's own decision D14, log
entry 10). -/
def Obligations.StatusWordsOfNamedFailures : Prop :=
  ∀ s : State, (s.err = ErrRecord.none → s.runState = .running → s.status = 0#64) ∧
    (s.err = ErrRecord.none → s.runState = .halted → s.status = 1#64) ∧
    (∀ v, (s.failedWith (.decode .badOpcode) 0 v).status = 6#64 ∧ (s.failedWith (.decode .badMode) 3 v).status = 422#64 ∧
      (s.failedWith (.decode .negativeWord) 0 v).status = 102#64 ∧ (s.failedWith (.address .fetch) 0 v).status = 10#64 ∧
      (s.failedWith (.address .jump) 0 v).status = 106#64 ∧ (s.failedWith (.io .outputRejected) 0 v).status = 78#64 ∧
      (s.failedWith (.overflow .multiply) 0 v).status = 50#64)

/-- The host reads memory only when the run is not Running, and its observation and result are those of an ended run:
run state, error record, ip, memory, output (the access rule is the spec's own decision D22). -/
def Obligations.HostReadsOnlyEndedRuns : Prop :=
  ∀ s : State,
    (s.runState = .running → s.observation = none ∧ s.result = none ∧ ∀ a, s.hostReadCell a = none) ∧
    (s.runState ≠ .running →
      s.observation = some ⟨s.runState, s.err, s.ip, s.mem, s.out⟩ ∧
        ∀ a, a < s.mem.len → s.hostReadCell a = some (s.mem.get a)) ∧
    (s.runState = .halted → 0 < s.mem.len → s.result = some (.success (some (s.mem.get 0)) s.out)) ∧
    (s.runState = .failed → s.result = some (.failure s.err))

/-- The core waits in exactly one place, inside IN: only IN's step is ever held up, only the host's answer to the input
request lifts the wait, and the step it then completes is that of the state before the wait; an ended run is lifted by
nothing (the waits and final stops as named faults are log entries 4 and 5, the lists of answers log entry 3). That
EndOfData and Malformed are used up by the failing request is the model's choice (log entry 13; decision D28 leaves it to
the host), and what the failure leaves is the spec's own decision D13, D14 (log entry 10). -/
def Obligations.TheCoreWaitsOnlyInsideIn : Prop :=
  ∀ (s : State) (x : Fault), step s = .fault x →
    (x = .runEnded ∧ s.runState ≠ .running ∧
      ∀ a v, step (s.hostAnswersInput a) = .fault .runEnded ∧ step (s.hostAnswersOutput v) = .fault .runEnded) ∨
    (x = .inputUnanswered ∧ s.runState = .running ∧
      (∀ v, step (s.hostAnswersOutput v) = .fault .inputUnanswered) ∧
      ∃ f d, decode s.params (s.mem.get s.ip.toNat) = .ok (.input f) ∧ s.CellIs (s.ip.toNat + 1) d ∧
        (∀ v, step (s.hostAnswersInput (.value v)) =
          .next { s with mem := s.mem.set d.toInt.toNat v, ip := s.ip + 2#64 }) ∧
        step (s.hostAnswersInput .endOfData) = .next (s.failedWith (.io .inputExhausted) 0 0) ∧
        step (s.hostAnswersInput .malformed) = .next (s.failedWith (.io .inputMalformed) 0 0))
end

