-- ==== Sys2Proof/Laws/Decode.lean ====
section
/-! SUPPORT. The opcode map both ways, the numbers an encoded word holds, and when the decoder succeeds. -/

namespace Sys2Proof

/-- The opcode map is one map: each number is its own opcode's. -/
theorem opcodeOfNumber_some {n : Nat} {op : Opcode} : opcodeOfNumber n = some op ↔ n = op.number := by
  constructor
  · intro h
    unfold opcodeOfNumber at h
    split at h <;> first | (cases h; rfl) | cases h
  · rintro rfl
    cases op <;> rfl

theorem opcodeOfNumber_none {n : Nat} : opcodeOfNumber n = none ↔ n ∉ [1, 2, 3, 4, 5, 6, 7, 8, 99] := by
  unfold opcodeOfNumber
  split <;> simp_all

theorem opcode_number_lt (op : Opcode) : op.number < 100 := by cases op <;> decide

@[simp] theorem instr_opcode (op : Opcode) (f : Fields) : (op.instr f).opcode = op := by cases op <;> rfl

@[simp] theorem instr_fields (op : Opcode) (f : Fields) : (op.instr f).fields = f := by cases op <;> rfl

@[simp] theorem opcode_instr (i : Instr) : i.opcode.instr i.fields = i := by cases i <;> rfl

theorem modeOfDigit_lt {d : Nat} {m : Mode} (h : modeOfDigit d = some m) : d < 2 := by
  unfold modeOfDigit at h
  split at h <;> simp_all

theorem modeOfDigit_none {d : Nat} : modeOfDigit d = none ↔ 1 < d := by
  match d with
  | 0 => simp [modeOfDigit]
  | 1 => simp [modeOfDigit]
  | n + 2 => simp [modeOfDigit]

/-- A slot has no effective mode exactly when it is checked and its digit is above 1. -/
theorem effectiveMode_none {p : Params} {c : SlotClass} {d : Nat} :
    effectiveMode p c d = none ↔ (c = .value ∨ (c = .unused ∧ p.checkUnusedModeDigits = true)) ∧ 1 < d := by
  cases c <;> simp [effectiveMode, modeOfDigit_none]
  split_ifs with h <;> simp [h, modeOfDigit_none]

/-- The three slots have effective modes exactly when each has. -/
theorem effectiveModes_ok {p : Params} {c : Slots SlotClass} {d : Slots Nat} {m : Slots Mode} :
    effectiveModes p c d = .ok m ↔ effectiveMode p c.s1 d.s1 = some m.s1 ∧
      effectiveMode p c.s2 d.s2 = some m.s2 ∧ effectiveMode p c.s3 d.s3 = some m.s3 := by
  obtain ⟨m1, m2, m3⟩ := m
  unfold effectiveModes
  split <;> simp_all

/-- The first bad slot is the one that is named. -/
theorem effectiveModes_error {p : Params} {c : Slots SlotClass} {d : Slots Nat} {k : Fin 4} :
    effectiveModes p c d = .error k ↔
      (k = 1 ∧ effectiveMode p c.s1 d.s1 = none) ∨
      (k = 2 ∧ effectiveMode p c.s1 d.s1 ≠ none ∧ effectiveMode p c.s2 d.s2 = none) ∨
      (k = 3 ∧ effectiveMode p c.s1 d.s1 ≠ none ∧ effectiveMode p c.s2 d.s2 ≠ none ∧
        effectiveMode p c.s3 d.s3 = none) := by
  unfold effectiveModes
  cases effectiveMode p c.s1 d.s1 <;> cases effectiveMode p c.s2 d.s2 <;> cases effectiveMode p c.s3 d.s3 <;>
    simp [eq_comm]

/-- The mode digits in plain division. -/
theorem modeDigits_eq (n : Nat) : modeDigits n = ⟨n / 100 % 10, n / 1000 % 10, n / 10000 % 10⟩ := rfl

/-- The mode digits of any number are decimal digits. -/
theorem digitsInRange_modeDigits (n : Nat) : digitsInRange (modeDigits n) = true := by
  have (k : Nat) : k % 10 < 10 := Nat.mod_lt k (by decide)
  simp [digitsInRange, modeDigits_eq, this]

/-- A word that is not negative is one number, signed or not. -/
theorem toInt_nonneg {w : Word} (h : 0 ≤ w.toInt) : w.toInt = w.toNat ∧ w.toNat < 9223372036854775808 := by
  have := BitVec.toInt_eq_toNat_cond w
  have hw := w.isLt
  split at this <;> omega

/-- A word is not negative exactly when its number is below 2^63. -/
theorem toInt_nonneg_iff {w : Word} : 0 ≤ w.toInt ↔ w.toNat < 9223372036854775808 := by
  have := BitVec.toInt_eq_toNat_cond w
  have hw := w.isLt
  split at this <;> omega

/-- What a decoded word is: not negative, its opcode's number, its own digits, their effective modes, and no high
digits where they are checked. -/
theorem decode_ok {p : Params} {w : Word} {i : Instr} :
    decode p w = .ok i ↔ 0 ≤ w.toInt ∧ w.toNat % 100 = i.opcode.number ∧ i.fields.digits = modeDigits w.toNat ∧
      effectiveModes p i.opcode.classes (modeDigits w.toNat) = .ok i.fields.modes ∧
        ¬ (p.highDigits = .fault ∧ w.toNat / 100000 ≠ 0) := by
  unfold decode
  by_cases hneg : w.toInt < 0
  · rw [if_pos hneg]
    exact ⟨fun h => (by cases h), fun h => by omega⟩
  rw [if_neg hneg]
  have hnn : 0 ≤ w.toInt := by omega
  cases ho : opcodeOfNumber (w.toNat % 100) with
  | none =>
    refine ⟨fun h => (by cases h), fun h => ?_⟩
    rw [opcodeOfNumber_some.mpr h.2.1] at ho
    cases ho
  | some op =>
  have hop := opcodeOfNumber_some.mp ho
  have same : w.toNat % 100 = i.opcode.number → op = i.opcode := fun h =>
    Option.some.inj (ho.symm.trans (opcodeOfNumber_some.mpr h))
  simp only
  cases hm : effectiveModes p op.classes (modeDigits w.toNat) with
  | error k =>
    refine ⟨fun h => (by cases h), fun h => ?_⟩
    rw [same h.2.1, h.2.2.2.1] at hm
    cases hm
  | ok modes =>
  simp only
  by_cases hh : p.highDigits = .fault ∧ w.toNat / 100000 ≠ 0
  · rw [if_pos hh]
    exact ⟨fun h => (by cases h), fun h => absurd hh h.2.2.2.2⟩
  rw [if_neg hh]
  constructor
  · intro h
    cases h
    exact ⟨hnn, by simpa using hop, by simp, by simpa using hm, hh⟩
  · rintro ⟨-, h2, h3, h4, -⟩
    have hio := same h2
    rw [hio, h4] at hm
    cases hm
    rw [hio, ← h3, show (⟨i.fields.digits, i.fields.modes⟩ : Fields) = i.fields from rfl, opcode_instr]

/-- The number of an instruction word, when its digits are decimal digits. -/
theorem wordNumber_lt {op : Opcode} {d : Slots Nat} (h : digitsInRange d = true) : wordNumber op d < 100000 := by
  have := opcode_number_lt op
  simp only [digitsInRange, Bool.and_eq_true, decide_eq_true_eq] at h
  unfold wordNumber
  omega

/-- The low two digits of an instruction word are its opcode's number. -/
theorem wordNumber_opcode (op : Opcode) (d : Slots Nat) : wordNumber op d % 100 = op.number := by
  have := opcode_number_lt op
  unfold wordNumber
  omega

/-- The mode digits of an instruction word are its own. -/
theorem wordNumber_digits {op : Opcode} {d : Slots Nat} (h : digitsInRange d = true) :
    modeDigits (wordNumber op d) = d := by
  have := opcode_number_lt op
  simp only [digitsInRange, Bool.and_eq_true, decide_eq_true_eq] at h
  obtain ⟨d1, d2, d3⟩ := d
  simp only [modeDigits, digit, wordNumber, Slots.mk.injEq] at h ⊢
  omega

/-- An encoded word holds the instruction's number. -/
theorem encode_toNat {i : Instr} (h : digitsInRange i.fields.digits = true) :
    (encode i).toNat = wordNumber i.opcode i.fields.digits := by
  have := wordNumber_lt (op := i.opcode) h
  rw [encode, BitVec.toNat_ofNat, Nat.mod_eq_of_lt (by omega)]

end Sys2Proof
end

