-- ==== Sys2Proof/Laws/Memory.lean ====
section
/-! SUPPORT. The memory: every operation keeps the canonical form, a cell reads what was last written to it, and
equal memories are equal data. -/

namespace Sys2Proof.Machine

@[simp] theorem set_len (m : Memory) (a : Nat) (v : Word) : (m.set a v).len = m.len := rfl

/-- Canonical form from a higher address up is canonical form from a lower one up. -/
theorem cellsWf_mono {lo lo' hi : Nat} (h : lo ≤ lo') : ∀ {c : List Cell}, cellsWf lo' hi c = true →
    cellsWf lo hi c = true
  | [], _ => rfl
  | (a, v) :: rest, hc => by
    simp only [cellsWf, Bool.and_eq_true, decide_eq_true_eq] at hc ⊢
    exact ⟨⟨⟨by omega, hc.1.1.2⟩, hc.1.2⟩, hc.2⟩

/-- A bound can be raised. -/
theorem cellsWf_le {lo hi hi' : Nat} (h : hi ≤ hi') : ∀ {c : List Cell}, cellsWf lo hi c = true →
    cellsWf lo hi' c = true
  | [], _ => rfl
  | (a, v) :: rest, hc => by
    simp only [cellsWf, Bool.and_eq_true, decide_eq_true_eq] at hc ⊢
    exact ⟨⟨⟨hc.1.1.1, by omega⟩, hc.1.2⟩, cellsWf_le h hc.2⟩

/-- Below the first address of a canonical list, nothing is listed. -/
theorem cellAt_below : ∀ {c : List Cell} {lo hi a : Nat}, cellsWf lo hi c = true → a < lo → cellAt c a = 0#64
  | [], _, _, _, _, _ => rfl
  | (b, v) :: rest, lo, hi, a, hc, ha => by
    simp only [cellsWf, Bool.and_eq_true, decide_eq_true_eq] at hc
    have hne : a ≠ b := by omega
    simp only [cellAt, hne, if_false]
    exact cellAt_below hc.2 (by omega)

/-- At or above the bound of a canonical list, nothing is listed. -/
theorem cellAt_above : ∀ {c : List Cell} {lo hi a : Nat}, cellsWf lo hi c = true → hi ≤ a → cellAt c a = 0#64
  | [], _, _, _, _, _ => rfl
  | (b, v) :: rest, lo, hi, a, hc, ha => by
    simp only [cellsWf, Bool.and_eq_true, decide_eq_true_eq] at hc
    have hne : a ≠ b := by omega
    simp only [cellAt, hne, if_false]
    exact cellAt_above hc.2 ha

/-- A write keeps the canonical form of the cells. -/
theorem putCell_wf : ∀ {c : List Cell} {lo hi a : Nat} {v : Word}, cellsWf lo hi c = true → lo ≤ a → a < hi →
    cellsWf lo hi (putCell c a v) = true
  | [], lo, hi, a, v, _, hlo, hhi => by
    by_cases hv : v = 0#64 <;> simp [putCell, cellsWf, hv, hlo, hhi]
  | (b, w) :: rest, lo, hi, a, v, hc, hlo, hhi => by
    have hc' := hc
    simp only [cellsWf, Bool.and_eq_true, decide_eq_true_eq] at hc'
    obtain ⟨⟨⟨h1, h2⟩, h3⟩, h4⟩ := hc'
    unfold putCell
    split_ifs with hab hv hab' hv
    · exact hc
    · simp only [cellsWf, Bool.and_eq_true, decide_eq_true_eq]
      exact ⟨⟨⟨hlo, hhi⟩, hv⟩, ⟨⟨by omega, h2⟩, h3⟩, h4⟩
    · exact cellsWf_mono (by omega) h4
    · simp only [cellsWf, Bool.and_eq_true, decide_eq_true_eq]
      exact ⟨⟨⟨hlo, hhi⟩, hv⟩, hab' ▸ h4⟩
    · simp only [cellsWf, Bool.and_eq_true, decide_eq_true_eq]
      exact ⟨⟨⟨h1, h2⟩, h3⟩, putCell_wf h4 (by omega) hhi⟩

/-- A cell reads what was last written to it, and every other cell reads as before. -/
theorem cellAt_putCell : ∀ {c : List Cell} {lo hi a : Nat} {v : Word} {b : Nat}, cellsWf lo hi c = true →
    cellAt (putCell c a v) b = if b = a then v else cellAt c b
  | [], lo, hi, a, v, b, _ => by
    by_cases hv : v = 0#64 <;> by_cases hb : b = a <;> simp [putCell, cellAt, hv, hb]
  | (x, w) :: rest, lo, hi, a, v, b, hc => by
    have hc' := hc
    simp only [cellsWf, Bool.and_eq_true, decide_eq_true_eq] at hc'
    obtain ⟨-, h4⟩ := hc'
    rcases Nat.lt_trichotomy a x with hax | rfl | hax
    · rw [putCell, if_pos hax]
      by_cases hb : b = a
      · have hbx : b ≠ x := by omega
        have hlow : cellAt rest b = 0#64 := cellAt_below h4 (by omega)
        by_cases hv : v = 0#64
        · rw [if_pos hb, if_pos hv, cellAt, if_neg hbx, hlow, hv]
        · rw [if_pos hb, if_neg hv, cellAt, if_pos hb]
      · by_cases hv : v = 0#64
        · rw [if_neg hb, if_pos hv]
        · rw [if_neg hb, if_neg hv, cellAt, if_neg hb]
    · rw [putCell, if_neg (Nat.lt_irrefl a), if_pos rfl]
      by_cases hb : b = a
      · have hlow : cellAt rest b = 0#64 := cellAt_below h4 (by omega)
        by_cases hv : v = 0#64
        · rw [if_pos hb, if_pos hv, hlow, hv]
        · rw [if_pos hb, if_neg hv, cellAt, if_pos hb]
      · by_cases hv : v = 0#64
        · rw [if_neg hb, if_pos hv, cellAt, if_neg hb]
        · rw [if_neg hb, if_neg hv, cellAt, if_neg hb, cellAt, if_neg hb]
    · have hlt : ¬ a < x := by omega
      have hne : a ≠ x := by omega
      rw [putCell, if_neg hlt, if_neg hne, cellAt, cellAt_putCell h4, cellAt]
      by_cases hbx : b = x
      · have hb : b ≠ a := by omega
        rw [if_pos hbx, if_neg hb, if_pos hbx]
      · rw [if_neg hbx, if_neg hbx]

/-- MemWrite keeps the canonical form. -/
theorem set_wf {m : Memory} {a : Nat} {v : Word} (h : m.wf = true) (ha : a < m.len) : (m.set a v).wf = true :=
  putCell_wf h (Nat.zero_le a) ha

/-- Read after write. -/
theorem get_set {m : Memory} {a b : Nat} {v : Word} (h : m.wf = true) :
    (m.set a v).get b = if b = a then v else m.get b :=
  cellAt_putCell h

/-- Two canonical lists of cells that read alike everywhere are equal. -/
theorem cells_ext : ∀ {c d : List Cell} {lo hi : Nat}, cellsWf lo hi c = true → cellsWf lo hi d = true →
    (∀ a, cellAt c a = cellAt d a) → c = d
  | [], [], _, _, _, _, _ => rfl
  | [], (b, w) :: rest, lo, hi, _, hd, h => by
    simp only [cellsWf, Bool.and_eq_true, decide_eq_true_eq] at hd
    have := h b
    simp [cellAt] at this
    exact absurd this.symm hd.1.2
  | (a, v) :: rest, [], lo, hi, hc, _, h => by
    simp only [cellsWf, Bool.and_eq_true, decide_eq_true_eq] at hc
    have := h a
    simp [cellAt] at this
    exact absurd this hc.1.2
  | (a, v) :: c, (b, w) :: d, lo, hi, hc, hd, h => by
    simp only [cellsWf, Bool.and_eq_true, decide_eq_true_eq] at hc hd
    obtain ⟨⟨⟨_, _⟩, hv⟩, hc4⟩ := hc
    obtain ⟨⟨⟨_, _⟩, hw⟩, hd4⟩ := hd
    have hab : a = b := by
      rcases Nat.lt_trichotomy a b with hlt | heq | hlt
      · have hne : a ≠ b := by omega
        have := h a
        rw [cellAt, if_pos rfl, cellAt, if_neg hne, cellAt_below hd4 (by omega)] at this
        exact absurd this hv
      · exact heq
      · have hne : b ≠ a := by omega
        have := h b
        rw [cellAt, if_neg hne, cellAt, if_pos rfl, cellAt_below hc4 (by omega)] at this
        exact absurd this.symm hw
    subst hab
    have hvw : v = w := by simpa [cellAt] using h a
    subst hvw
    have hcd : c = d := cells_ext hc4 hd4 fun x => by
      by_cases hx : x = a
      · rw [cellAt_below hc4 (by omega), cellAt_below hd4 (by omega)]
      · simpa [cellAt, hx] using h x
    rw [hcd]

/-- Equal memories are equal data. -/
theorem memory_ext {m n : Memory} (hm : m.wf = true) (hn : n.wf = true) (hl : m.len = n.len)
    (h : ∀ a, m.get a = n.get a) : m = n := by
  obtain ⟨c, l⟩ := m
  obtain ⟨d, k⟩ := n
  simp only at hl
  subst hl
  exact congrArg (Memory.mk · l) (cells_ext hm hn h)

@[simp] theorem load_len : ∀ (cs : List Word) (m : Memory) (a : Nat), (m.load a cs).len = m.len
  | [], _, _ => rfl
  | v :: rest, m, a => load_len rest (m.set a v) (a + 1)

/-- Loading values below MEM_LEN keeps the canonical form. -/
theorem load_wf : ∀ {cs : List Word} {m : Memory} {a : Nat}, m.wf = true → a + cs.length ≤ m.len →
    (m.load a cs).wf = true
  | [], _, _, h, _ => h
  | v :: rest, m, a, h, hl => by
    simp only [List.length_cons] at hl
    exact load_wf (m := m.set a v) (a := a + 1) (set_wf h (by omega)) (by rw [set_len]; omega)

/-- Loading changes no cell below its first address. -/
theorem get_load_below : ∀ {cs : List Word} {m : Memory} {a b : Nat}, m.wf = true → a + cs.length ≤ m.len →
    b < a → (m.load a cs).get b = m.get b
  | [], _, _, _, _, _, _ => rfl
  | v :: rest, m, a, b, h, hl, hb => by
    simp only [List.length_cons] at hl
    have hab : b ≠ a := by omega
    have := get_load_below (cs := rest) (m := m.set a v) (a := a + 1) (b := b) (set_wf h (by omega))
      (by rw [set_len]; omega) (by omega)
    rwa [get_set h, if_neg hab] at this

/-- Loading puts the k-th value at the k-th address. -/
theorem get_load : ∀ {cs : List Word} {m : Memory} {a k : Nat} (_ : m.wf = true) (_ : a + cs.length ≤ m.len)
    (hk : k < cs.length), (m.load a cs).get (a + k) = cs[k]
  | v :: rest, m, a, 0, h, hl, _ => by
    simp only [List.length_cons] at hl
    have := get_load_below (cs := rest) (m := m.set a v) (a := a + 1) (b := a) (set_wf h (by omega))
      (by rw [set_len]; omega) (by omega)
    rwa [get_set h, if_pos rfl] at this
  | v :: rest, m, a, k + 1, h, hl, hk => by
    simp only [List.length_cons] at hl hk
    have := get_load (cs := rest) (m := m.set a v) (a := a + 1) (k := k) (set_wf h (by omega))
      (by rw [set_len]; omega) (by omega)
    rwa [show a + 1 + k = a + (k + 1) by omega] at this

@[simp] theorem ofImage_len (cs : List Word) : (Memory.ofImage cs).len = cs.length := by
  simp [Memory.ofImage]

/-- A loaded image is in canonical form. -/
theorem ofImage_wf (cs : List Word) : (Memory.ofImage cs).wf = true :=
  load_wf (m := ⟨[], cs.length⟩) rfl (by simp)

/-- Cell k of a loaded image is its k-th value. -/
theorem get_ofImage (cs : List Word) (k : Nat) (hk : k < cs.length) : (Memory.ofImage cs).get k = cs[k] := by
  simpa [Memory.ofImage] using get_load (m := ⟨[], cs.length⟩) (a := 0) rfl (by simp) hk

end Sys2Proof.Machine
end

