-- ==== Sys2Proof/Laws/State.lean ====
section
/-! SUPPORT. One lemma for each field of each update of the state. -/

namespace Sys2Proof.Machine

/-! Failure entry. -/

@[simp] theorem raise_mem (s : State) (r : Raise) : (s.raise r).mem = s.mem := rfl
@[simp] theorem raise_ip (s : State) (r : Raise) : (s.raise r).ip = s.ip := rfl
@[simp] theorem raise_runState (s : State) (r : Raise) : (s.raise r).runState = .failed := rfl
@[simp] theorem raise_err (s : State) (r : Raise) : (s.raise r).err = ⟨r.cause, r.slot, r.value, s.ip⟩ := rfl
@[simp] theorem raise_out (s : State) (r : Raise) : (s.raise r).out = s.out := rfl
@[simp] theorem raise_params (s : State) (r : Raise) : (s.raise r).params = s.params := rfl
@[simp] theorem raise_channel (s : State) (r : Raise) : (s.raise r).channel = s.channel := rfl

/-! The fall-through ip update. -/

@[simp] theorem advance_mem (s : State) (n : Nat) : (s.advance n).mem = s.mem := rfl
@[simp] theorem advance_ip (s : State) (n : Nat) : (s.advance n).ip = s.ip + BitVec.ofNat 64 n := rfl
@[simp] theorem advance_runState (s : State) (n : Nat) : (s.advance n).runState = s.runState := rfl
@[simp] theorem advance_err (s : State) (n : Nat) : (s.advance n).err = s.err := rfl
@[simp] theorem advance_out (s : State) (n : Nat) : (s.advance n).out = s.out := rfl
@[simp] theorem advance_params (s : State) (n : Nat) : (s.advance n).params = s.params := rfl
@[simp] theorem advance_channel (s : State) (n : Nat) : (s.advance n).channel = s.channel := rfl

/-! A failed run's state. -/

@[simp] theorem failedWith_mem (s : State) (c : Cause) (k : Fin 4) (v : Int) :
    (s.failedWith c k v).mem = s.mem := rfl
@[simp] theorem failedWith_ip (s : State) (c : Cause) (k : Fin 4) (v : Int) :
    (s.failedWith c k v).ip = s.ip := rfl
@[simp] theorem failedWith_runState (s : State) (c : Cause) (k : Fin 4) (v : Int) :
    (s.failedWith c k v).runState = .failed := rfl
@[simp] theorem failedWith_err (s : State) (c : Cause) (k : Fin 4) (v : Int) :
    (s.failedWith c k v).err = ⟨c, k, v, s.ip⟩ := rfl
@[simp] theorem failedWith_out (s : State) (c : Cause) (k : Fin 4) (v : Int) :
    (s.failedWith c k v).out = s.out := rfl
@[simp] theorem failedWith_params (s : State) (c : Cause) (k : Fin 4) (v : Int) :
    (s.failedWith c k v).params = s.params := rfl
@[simp] theorem failedWith_channel (s : State) (c : Cause) (k : Fin 4) (v : Int) :
    (s.failedWith c k v).channel = s.channel := rfl

/-- Failure entry and the state claims name are the same. -/
theorem raise_eq_failedWith (s : State) (r : Raise) : s.raise r = s.failedWith r.cause r.slot r.value := rfl

/-! The host's answers. -/

@[simp] theorem hostAnswersInput_mem (s : State) (a : InputAnswer) : (s.hostAnswersInput a).mem = s.mem := rfl
@[simp] theorem hostAnswersInput_ip (s : State) (a : InputAnswer) : (s.hostAnswersInput a).ip = s.ip := rfl
@[simp] theorem hostAnswersInput_runState (s : State) (a : InputAnswer) :
    (s.hostAnswersInput a).runState = s.runState := rfl
@[simp] theorem hostAnswersInput_err (s : State) (a : InputAnswer) : (s.hostAnswersInput a).err = s.err := rfl
@[simp] theorem hostAnswersInput_out (s : State) (a : InputAnswer) : (s.hostAnswersInput a).out = s.out := rfl
@[simp] theorem hostAnswersInput_params (s : State) (a : InputAnswer) :
    (s.hostAnswersInput a).params = s.params := rfl
@[simp] theorem hostAnswersOutput_mem (s : State) (a : OutputAnswer) : (s.hostAnswersOutput a).mem = s.mem := rfl
@[simp] theorem hostAnswersOutput_ip (s : State) (a : OutputAnswer) : (s.hostAnswersOutput a).ip = s.ip := rfl
@[simp] theorem hostAnswersOutput_runState (s : State) (a : OutputAnswer) :
    (s.hostAnswersOutput a).runState = s.runState := rfl
@[simp] theorem hostAnswersOutput_err (s : State) (a : OutputAnswer) : (s.hostAnswersOutput a).err = s.err := rfl
@[simp] theorem hostAnswersOutput_out (s : State) (a : OutputAnswer) : (s.hostAnswersOutput a).out = s.out := rfl
@[simp] theorem hostAnswersOutput_params (s : State) (a : OutputAnswer) :
    (s.hostAnswersOutput a).params = s.params := rfl

end Sys2Proof.Machine
end

