-- ==== Sys2Proof/Laws/Ops.lean ====
section
/-! SUPPORT. Each shared operation: when it succeeds and with what, when it raises and what. -/

namespace Sys2Proof.Machine

/-! Peeling a computation that may raise. -/

theorem bind_ok {α β : Type} {x : Except Raise α} {f : α → Except Raise β} {b : β} :
    (x >>= f) = .ok b ↔ ∃ a, x = .ok a ∧ f a = .ok b := by
  cases x <;> simp [bind, Except.bind]

theorem bind_error {α β : Type} {x : Except Raise α} {f : α → Except Raise β} {r : Raise} :
    (x >>= f) = .error r ↔ x = .error r ∨ ∃ a, x = .ok a ∧ f a = .error r := by
  cases x <;> simp [bind, Except.bind]

@[simp] theorem ok_bind {α β : Type} (a : α) (f : α → Except Raise β) : (Except.ok a >>= f) = f a := rfl

@[simp] theorem error_bind {α β : Type} (r : Raise) (f : α → Except Raise β) :
    ((Except.error r : Except Raise α) >>= f) = .error r := rfl

@[simp] theorem complete_ok (s t : State) : complete s (.ok t) = .next t := rfl

@[simp] theorem complete_error (s : State) (r : Raise) : complete s (.error r) = .next (s.raise r) := rfl

/-- An instruction that completes or raises always gives a next state. -/
theorem complete_next {s t : State} {x : Except Raise State} :
    complete s x = .next t ↔ x = .ok t ∨ ∃ r, x = .error r ∧ t = s.raise r := by
  cases x <;> simp [complete, eq_comm]

/-! Accesses. -/

theorem memRead_valid {s : State} {a : Int} (h : s.mem.valid a) : s.memRead a = .ok (s.mem.get a.toNat) :=
  if_pos h

theorem memRead_invalid {s : State} {a : Int} (h : ¬ s.mem.valid a) :
    s.memRead a = .error (addressError .read a) :=
  if_neg h

/-- MemRead succeeds with v exactly when the cell holds v. -/
theorem memRead_ok {s : State} {a : Int} {v : Word} : s.memRead a = .ok v ↔ s.CellIs a v := by
  unfold State.memRead State.CellIs
  split_ifs with h
  · exact ⟨fun e => ⟨h, Except.ok.inj e⟩, fun e => congrArg _ e.2⟩
  · exact ⟨fun e => (by cases e), fun e => absurd e.1 h⟩

/-- MemRead raises exactly at an invalid address, with that address. -/
theorem memRead_error {s : State} {a : Int} {r : Raise} :
    s.memRead a = .error r ↔ ¬ s.mem.valid a ∧ r = addressError .read a := by
  unfold State.memRead
  split_ifs with h <;> simp [h, eq_comm]

theorem checkWrite_ok {s : State} {a : Int} {u : Unit} : s.checkWrite a = .ok u ↔ s.mem.valid a := by
  unfold State.checkWrite
  split_ifs with h
  · exact ⟨fun _ => h, fun _ => rfl⟩
  · exact ⟨fun e => (by cases e), fun e => absurd e h⟩

theorem checkWrite_error {s : State} {a : Int} {r : Raise} :
    s.checkWrite a = .error r ↔ ¬ s.mem.valid a ∧ r = addressError .write a := by
  unfold State.checkWrite
  split_ifs with h <;> simp [h, eq_comm]

/-- MemWrite succeeds exactly at a valid address and changes that one cell. -/
theorem memWrite_ok {s t : State} {a : Int} {v : Word} :
    s.memWrite a v = .ok t ↔ s.mem.valid a ∧ t = { s with mem := s.mem.set a.toNat v } := by
  unfold State.memWrite State.checkWrite
  split_ifs with h
  · exact ⟨fun e => ⟨h, (Except.ok.inj e).symm⟩, fun e => congrArg _ e.2.symm⟩
  · exact ⟨fun e => (by cases e), fun e => absurd e.1 h⟩

/-- MemWrite raises exactly at an invalid address, with that address. -/
theorem memWrite_error {s : State} {a : Int} {v : Word} {r : Raise} :
    s.memWrite a v = .error r ↔ ¬ s.mem.valid a ∧ r = addressError .write a := by
  unfold State.memWrite State.checkWrite
  split_ifs with h
  · simp [h, pure, Except.pure]
  · simp [h, eq_comm]

theorem jumpTo_ok {s t : State} {w : Word} : s.jumpTo w = .ok t ↔ 0 ≤ w.toInt ∧ t = { s with ip := w } := by
  unfold State.jumpTo
  split_ifs with h
  · simp [h]
  · simp [eq_comm, not_lt.mp h]

theorem jumpTo_error {s : State} {w : Word} {r : Raise} :
    s.jumpTo w = .error r ↔ w.toInt < 0 ∧ r = addressError .jump w.toInt := by
  unfold State.jumpTo
  split_ifs with h <;> simp [h, eq_comm]

/-! Operands. -/

theorem param_ok {s : State} {k : Nat} {v : Word} : s.param k = .ok v ↔ s.CellIs (s.ip.toNat + k) v :=
  memRead_ok

theorem param_error {s : State} {k : Nat} {r : Raise} :
    s.param k = .error r ↔ ¬ s.mem.valid (s.ip.toNat + k) ∧ r = addressError .read (s.ip.toNat + k) :=
  memRead_error

/-- val(k) succeeds with v exactly when the operand is v. -/
theorem val_ok {s : State} {k : Nat} {m : Mode} {v : Word} : s.val k m = .ok v ↔ s.OperandIs k m v := by
  cases m
  · simp only [State.val, bind_ok, memRead_ok, param_ok, State.OperandIs]
  · simp [State.val, bind_ok, param_ok, State.OperandIs, pure, Except.pure]

/-- val(k) raises exactly when its parameter cell or the cell that it addresses is missing. -/
theorem val_error {s : State} {k : Nat} {m : Mode} {r : Raise} :
    s.val k m = .error r ↔ ∃ a, s.OperandFaults k m a ∧ r = addressError .read a := by
  cases m <;>
    simp only [State.val, bind_error, memRead_error, param_error, param_ok, State.OperandFaults, pure, Except.pure]
  · constructor
    · rintro (⟨h, rfl⟩ | ⟨p, hp, hv, rfl⟩)
      · exact ⟨_, .inl ⟨rfl, h⟩, rfl⟩
      · exact ⟨_, .inr ⟨trivial, p, hp, rfl, hv⟩, rfl⟩
    · rintro ⟨a, ⟨rfl, h⟩ | ⟨-, p, hp, rfl, hv⟩, rfl⟩
      · exact .inl ⟨h, rfl⟩
      · exact .inr ⟨p, hp, hv, rfl⟩
  · constructor
    · rintro (⟨h, rfl⟩ | ⟨p, hp, hv⟩)
      · exact ⟨_, .inl ⟨rfl, h⟩, rfl⟩
      · simp at hv
    · rintro ⟨a, ⟨rfl, h⟩ | ⟨hf, -⟩, rfl⟩
      · exact .inl ⟨h, rfl⟩
      · simp at hf

/-- dst(k) is the parameter cell's value as an address. -/
theorem dst_ok {s : State} {k : Nat} {d : Int} :
    s.dst k = .ok d ↔ ∃ p, s.CellIs (s.ip.toNat + k) p ∧ d = p.toInt := by
  simp only [State.dst, bind_ok, param_ok, pure, Except.pure, Except.ok.injEq]
  exact exists_congr fun p => and_congr_right fun _ => eq_comm

theorem dst_error {s : State} {k : Nat} {r : Raise} :
    s.dst k = .error r ↔ ¬ s.mem.valid (s.ip.toNat + k) ∧ r = addressError .read (s.ip.toNat + k) := by
  simp [State.dst, bind_error, param_error, pure, Except.pure]

/-! The ALU. -/

theorem aluResult_inRange {p : Params} {k : OverflowCause} {x : Int} (h : inI64 x) :
    aluResult p k x = .ok (wrap64 x) :=
  if_pos h

theorem aluResult_wrap {p : Params} {k : OverflowCause} {x : Int} (h : p.overflow = .wrap) :
    aluResult p k x = .ok (wrap64 x) := by
  unfold aluResult
  split_ifs
  · rfl
  · rw [h]

theorem aluResult_fault {p : Params} {k : OverflowCause} {x : Int} (h : ¬ inI64 x) (hp : p.overflow = .fault) :
    aluResult p k x = .error (overflowError k) := by
  simp [aluResult, h, hp]

/-- The ALU gives the exact result modulo 2^64, or raises an OverflowError. -/
theorem aluResult_cases (p : Params) (k : OverflowCause) (x : Int) :
    aluResult p k x = .ok (wrap64 x) ∨
      (aluResult p k x = .error (overflowError k) ∧ ¬ inI64 x ∧ p.overflow = .fault) := by
  unfold aluResult
  split_ifs with h
  · exact .inl rfl
  · cases hp : p.overflow
    · exact .inr ⟨rfl, h, rfl⟩
    · exact .inl rfl

/-- A wrapped value that is in range is the value. -/
theorem wrap64_toInt {x : Int} (h : inI64 x) : (wrap64 x).toInt = x := by
  unfold wrap64
  rw [BitVec.toInt_ofInt]
  exact Int.bmod_eq_of_le (by have := h.1; norm_num; omega) (by have := h.2; norm_num; omega)

theorem wrap64_add (a b : Word) : wrap64 (a.toInt + b.toInt) = a + b := by
  simp [wrap64, BitVec.ofInt_add]

theorem wrap64_mul (a b : Word) : wrap64 (a.toInt * b.toInt) = a * b := by
  simp [wrap64, BitVec.ofInt_mul]

/-! Fetch. -/

theorem fetchWord_ok {s : State} {w : Word} :
    s.fetchWord = .ok w ↔ s.ip.toNat < s.mem.len ∧ s.mem.get s.ip.toNat = w := by
  unfold State.fetchWord
  split_ifs with h <;> simp [h]

theorem fetchWord_error {s : State} {r : Raise} :
    s.fetchWord = .error r ↔ s.mem.len ≤ s.ip.toNat ∧ r = addressError .fetch s.ip.toNat := by
  unfold State.fetchWord
  split_ifs with h
  · simp; omega
  · simp [not_lt.mp h, eq_comm]

theorem fetchInstr_ok {s : State} {i : Instr} :
    s.fetchInstr = .ok i ↔ s.ip.toNat < s.mem.len ∧ decode s.params (s.mem.get s.ip.toNat) = .ok i := by
  simp only [State.fetchInstr, bind_ok, fetchWord_ok]
  constructor
  · rintro ⟨w, ⟨hl, rfl⟩, h⟩
    cases hd : decode s.params (s.mem.get s.ip.toNat) with
    | ok j => rw [hd] at h; exact ⟨hl, by simpa [pure, Except.pure] using h⟩
    | error e => rw [hd] at h; simp [throw, throwThe, MonadExceptOf.throw] at h
  · rintro ⟨hl, h⟩
    exact ⟨_, ⟨hl, rfl⟩, by rw [h]; rfl⟩

theorem fetchInstr_error {s : State} {r : Raise} :
    s.fetchInstr = .error r ↔
      (s.mem.len ≤ s.ip.toNat ∧ r = addressError .fetch s.ip.toNat) ∨
        (s.ip.toNat < s.mem.len ∧ ∃ e, decode s.params (s.mem.get s.ip.toNat) = .error e ∧ r = decodeRaise e) := by
  simp only [State.fetchInstr, bind_error, fetchWord_ok, fetchWord_error]
  refine or_congr Iff.rfl ?_
  constructor
  · rintro ⟨w, ⟨hl, rfl⟩, h⟩
    cases hd : decode s.params (s.mem.get s.ip.toNat) with
    | ok j => rw [hd] at h; simp [pure, Except.pure] at h
    | error e =>
      rw [hd] at h
      exact ⟨hl, e, rfl, by simpa [throw, throwThe, MonadExceptOf.throw, eq_comm] using h⟩
  · rintro ⟨hl, e, h, rfl⟩
    exact ⟨_, ⟨hl, rfl⟩, by rw [h]; rfl⟩

/-! The host's answers. -/

theorem inRead_cons {s : State} {a : InputAnswer} {rest : List InputAnswer} (h : s.channel.answers = a :: rest) :
    s.inRead = some (a, { s with channel := { s.channel with answers := rest } }) := by
  rw [State.inRead, h]

theorem inRead_nil {s : State} (h : s.channel.answers = []) : s.inRead = s.channel.answersAfter.map fun a => (a, s) := by
  rw [State.inRead, h]

theorem inRead_cases {s t : State} {a : InputAnswer} (h : s.inRead = some (a, t)) :
    (∃ rest, s.channel.answers = a :: rest ∧ t = { s with channel := { s.channel with answers := rest } }) ∨
      (s.channel.answers = [] ∧ s.channel.answersAfter = some a ∧ t = s) := by
  unfold State.inRead at h
  split at h
  · rename_i b rest hb
    simp only [Option.some.injEq, Prod.mk.injEq] at h
    obtain ⟨rfl, rfl⟩ := h
    exact .inl ⟨rest, hb, rfl⟩
  · rename_i hb
    simp only [Option.map_eq_some_iff, Prod.mk.injEq] at h
    obtain ⟨b, hb', rfl, rfl⟩ := h
    exact .inr ⟨hb, hb', rfl⟩

theorem inRead_none {s : State} : s.inRead = none ↔ s.channel.answers = [] ∧ s.channel.answersAfter = none := by
  unfold State.inRead
  split <;> simp_all

theorem verdict_cons {s : State} {a : OutputAnswer} {rest : List OutputAnswer} (h : s.channel.verdicts = a :: rest) :
    s.verdict = (a, { s with channel := { s.channel with verdicts := rest } }) := by
  rw [State.verdict, h]

theorem verdict_nil {s : State} (h : s.channel.verdicts = []) : s.verdict = (s.channel.verdictsAfter, s) := by
  rw [State.verdict, h]

/-- The verdict is the oldest of the list, which is then used up, or the standing one. -/
theorem verdict_cases {s t : State} {a : OutputAnswer} (h : s.verdict = (a, t)) :
    (∃ rest, s.channel.verdicts = a :: rest ∧ t = { s with channel := { s.channel with verdicts := rest } }) ∨
      (s.channel.verdicts = [] ∧ s.channel.verdictsAfter = a ∧ t = s) := by
  cases hv : s.channel.verdicts with
  | cons b rest =>
    cases (verdict_cons hv).symm.trans h
    exact .inl ⟨rest, rfl, rfl⟩
  | nil =>
    cases (verdict_nil hv).symm.trans h
    exact .inr ⟨rfl, rfl, rfl⟩

/-- OutWrite of an accepted value appends it. -/
theorem outWrite_accepted {s t : State} {v : Word} (h : s.verdict = (.accepted, t)) :
    s.outWrite v = (.accepted, { t with out := t.out ++ [v] }) := by
  rw [State.outWrite, h]

/-- OutWrite of a rejected value does not. -/
theorem outWrite_rejected {s t : State} {v : Word} (h : s.verdict = (.rejected, t)) :
    s.outWrite v = (.rejected, t) := by
  rw [State.outWrite, h]

end Sys2Proof.Machine
end

