-- ==== Sys2Proof/Laws/Handlers.lean ====
section
/-! SUPPORT. What each shared access order and each handler can do, once: the later proofs cite these and do not
unfold the handlers. -/

namespace Sys2Proof.Machine

/-! The arms of the dispatch. -/

theorem exec_add (f : Fields) (s : State) : exec (.add f) s = execAdd f s := rfl
theorem exec_mul (f : Fields) (s : State) : exec (.mul f) s = execMul f s := rfl
theorem exec_input (f : Fields) (s : State) : exec (.input f) s = execIn f s := rfl
theorem exec_output (f : Fields) (s : State) : exec (.output f) s = execOut f s := rfl
theorem exec_jt (f : Fields) (s : State) : exec (.jt f) s = execJt f s := rfl
theorem exec_jf (f : Fields) (s : State) : exec (.jf f) s = execJf f s := rfl
theorem exec_lt (f : Fields) (s : State) : exec (.lt f) s = execLt f s := rfl
theorem exec_eq (f : Fields) (s : State) : exec (.eq f) s = execEq f s := rfl
theorem exec_halt (f : Fields) (s : State) : exec (.halt f) s = execHalt f s := rfl

/-! The shared access orders. -/

/-- Two values, a destination, a result and one write: the completed instruction. -/
theorem writeResult_completes {s : State} {f : Fields} {alu : Word → Word → Except Raise Word} {a b d r : Word}
    (ha : s.OperandIs 1 f.modes.s1 a) (hb : s.OperandIs 2 f.modes.s2 b) (hd : s.CellIs (s.ip.toNat + 3) d)
    (hr : alu a b = .ok r) (hv : s.mem.valid d.toInt) :
    s.writeResult f alu = .next { s with mem := s.mem.set d.toInt.toNat r, ip := s.ip + 4#64 } := by
  have hdst : s.dst 3 = .ok d.toInt := dst_ok.mpr ⟨d, hd, rfl⟩
  have hw := (memWrite_ok (v := r)).mpr ⟨hv, rfl⟩
  simp only [State.writeResult, val_ok.mpr ha, val_ok.mpr hb, hdst, ok_bind, hr, hw]
  rfl

/-- Everything that an instruction of two values, a destination and one write can do. -/
theorem writeResult_cases {s t : State} {f : Fields} {alu : Word → Word → Except Raise Word}
    (h : s.writeResult f alu = .next t) :
    (∃ a b d r, s.OperandIs 1 f.modes.s1 a ∧ s.OperandIs 2 f.modes.s2 b ∧ s.CellIs (s.ip.toNat + 3) d ∧
      alu a b = .ok r ∧ s.mem.valid d.toInt ∧
        t = { s with mem := s.mem.set d.toInt.toNat r, ip := s.ip + 4#64 }) ∨
    (∃ x, s.OperandFaults 1 f.modes.s1 x ∧ t = s.raise (addressError .read x)) ∨
    (∃ a x, s.OperandIs 1 f.modes.s1 a ∧ s.OperandFaults 2 f.modes.s2 x ∧
      t = s.raise (addressError .read x)) ∨
    (∃ a b, s.OperandIs 1 f.modes.s1 a ∧ s.OperandIs 2 f.modes.s2 b ∧ ¬ s.mem.valid (s.ip.toNat + 3) ∧
      t = s.raise (addressError .read (s.ip.toNat + 3))) ∨
    (∃ a b d r, s.OperandIs 1 f.modes.s1 a ∧ s.OperandIs 2 f.modes.s2 b ∧ s.CellIs (s.ip.toNat + 3) d ∧
      alu a b = .error r ∧ t = s.raise r) ∨
    (∃ a b d r, s.OperandIs 1 f.modes.s1 a ∧ s.OperandIs 2 f.modes.s2 b ∧ s.CellIs (s.ip.toNat + 3) d ∧
      alu a b = .ok r ∧ ¬ s.mem.valid d.toInt ∧ t = s.raise (addressError .write d.toInt)) := by
  unfold State.writeResult at h
  cases ha : s.val 1 f.modes.s1 with
  | error r =>
    rw [ha] at h
    obtain ⟨x, hx, rfl⟩ := val_error.mp ha
    cases h
    exact .inr (.inl ⟨x, hx, rfl⟩)
  | ok a =>
  have ha' := val_ok.mp ha
  rw [ha, ok_bind] at h
  cases hb : s.val 2 f.modes.s2 with
  | error r =>
    rw [hb] at h
    obtain ⟨x, hx, rfl⟩ := val_error.mp hb
    cases h
    exact .inr (.inr (.inl ⟨a, x, ha', hx, rfl⟩))
  | ok b =>
  have hb' := val_ok.mp hb
  rw [hb, ok_bind] at h
  cases hd : s.dst 3 with
  | error r =>
    rw [hd] at h
    obtain ⟨hx, rfl⟩ := dst_error.mp hd
    cases h
    exact .inr (.inr (.inr (.inl ⟨a, b, ha', hb', hx, rfl⟩)))
  | ok e =>
  obtain ⟨d, hd', rfl⟩ := dst_ok.mp hd
  rw [hd, ok_bind] at h
  cases hr : alu a b with
  | error r =>
    rw [hr] at h
    cases h
    exact .inr (.inr (.inr (.inr (.inl ⟨a, b, d, r, ha', hb', hd', hr, rfl⟩))))
  | ok r =>
  rw [hr, ok_bind] at h
  cases hw : s.memWrite d.toInt r with
  | error q =>
    rw [hw] at h
    obtain ⟨hx, rfl⟩ := memWrite_error.mp hw
    cases h
    exact .inr (.inr (.inr (.inr (.inr ⟨a, b, d, r, ha', hb', hd', hr, hx, rfl⟩))))
  | ok u =>
    rw [hw] at h
    obtain ⟨hv, rfl⟩ := memWrite_ok.mp hw
    cases h
    exact .inl ⟨a, b, d, r, ha', hb', hd', hr, hv, rfl⟩

/-- Such an instruction always gives a next state. -/
theorem writeResult_next (s : State) (f : Fields) (alu : Word → Word → Except Raise Word) :
    ∃ t, s.writeResult f alu = .next t := by
  unfold State.writeResult complete
  split <;> exact ⟨_, rfl⟩

/-- Everything that a conditional jump can do. -/
theorem jumpWhen_cases {s t : State} {f : Fields} {taken : Word → Bool} (h : s.jumpWhen f taken = .next t) :
    (∃ c g, s.OperandIs 1 f.modes.s1 c ∧ s.OperandIs 2 f.modes.s2 g ∧
      ((taken c = true ∧ 0 ≤ g.toInt ∧ t = { s with ip := g }) ∨
        (taken c = true ∧ g.toInt < 0 ∧ t = s.raise (addressError .jump g.toInt)) ∨
          (taken c = false ∧ t = { s with ip := s.ip + 3#64 }))) ∨
    (∃ x, s.OperandFaults 1 f.modes.s1 x ∧ t = s.raise (addressError .read x)) ∨
    (∃ c x, s.OperandIs 1 f.modes.s1 c ∧ s.OperandFaults 2 f.modes.s2 x ∧
      t = s.raise (addressError .read x)) := by
  unfold State.jumpWhen at h
  cases hc : s.val 1 f.modes.s1 with
  | error r =>
    rw [hc] at h
    obtain ⟨x, hx, rfl⟩ := val_error.mp hc
    cases h
    exact .inr (.inl ⟨x, hx, rfl⟩)
  | ok c =>
  have hc' := val_ok.mp hc
  rw [hc, ok_bind] at h
  cases hg : s.val 2 f.modes.s2 with
  | error r =>
    rw [hg] at h
    obtain ⟨x, hx, rfl⟩ := val_error.mp hg
    cases h
    exact .inr (.inr ⟨c, x, hc', hx, rfl⟩)
  | ok g =>
  have hg' := val_ok.mp hg
  rw [hg, ok_bind] at h
  refine .inl ⟨c, g, hc', hg', ?_⟩
  cases ht : taken c with
  | false =>
    rw [ht] at h
    cases h
    exact .inr (.inr ⟨rfl, rfl⟩)
  | true =>
    rw [ht] at h
    cases hj : s.jumpTo g with
    | error r =>
      rw [if_pos rfl, hj] at h
      obtain ⟨hn, rfl⟩ := jumpTo_error.mp hj
      cases h
      exact .inr (.inl ⟨rfl, hn, rfl⟩)
    | ok u =>
      rw [if_pos rfl, hj] at h
      obtain ⟨hn, rfl⟩ := jumpTo_ok.mp hj
      cases h
      exact .inl ⟨rfl, hn, rfl⟩

theorem jumpWhen_next (s : State) (f : Fields) (taken : Word → Bool) : ∃ t, s.jumpWhen f taken = .next t := by
  unfold State.jumpWhen complete
  split <;> exact ⟨_, rfl⟩

/-- A conditional jump, when both operands are there. -/
theorem jumpWhen_resolved {s : State} {f : Fields} {taken : Word → Bool} {c g : Word}
    (hc : s.OperandIs 1 f.modes.s1 c) (hg : s.OperandIs 2 f.modes.s2 g) :
    s.jumpWhen f taken = complete s (if taken c then s.jumpTo g else .ok (s.advance 3)) := by
  simp only [State.jumpWhen, val_ok.mpr hc, val_ok.mpr hg, ok_bind]
  rfl

/-- The destination of IN is its parameter cell's value, when that is a valid address. -/
theorem inputDst_ok {s : State} {d : Int} :
    s.inputDst = .ok d ↔ ∃ p, s.CellIs (s.ip.toNat + 1) p ∧ d = p.toInt ∧ s.mem.valid d := by
  simp only [State.inputDst, bind_ok, dst_ok, checkWrite_ok, pure, Except.pure, Except.ok.injEq]
  constructor
  · rintro ⟨e, ⟨p, hp, rfl⟩, -, hv, rfl⟩
    exact ⟨p, hp, rfl, hv⟩
  · rintro ⟨p, hp, rfl, hv⟩
    exact ⟨_, ⟨p, hp, rfl⟩, (), hv, rfl⟩

theorem inputDst_error {s : State} {r : Raise} :
    s.inputDst = .error r ↔
      (¬ s.mem.valid (s.ip.toNat + 1) ∧ r = addressError .read (s.ip.toNat + 1)) ∨
        ∃ p, s.CellIs (s.ip.toNat + 1) p ∧ ¬ s.mem.valid p.toInt ∧ r = addressError .write p.toInt := by
  simp only [State.inputDst, bind_error, dst_ok, dst_error, checkWrite_error, pure, Except.pure]
  refine or_congr Iff.rfl ?_
  constructor
  · rintro ⟨e, ⟨p, hp, rfl⟩, ⟨hv, rfl⟩ | ⟨-, -, h⟩⟩
    · exact ⟨p, hp, hv, rfl⟩
    · cases h
  · rintro ⟨p, hp, hv, rfl⟩
    exact ⟨_, ⟨p, hp, rfl⟩, .inl ⟨hv, rfl⟩⟩

/-- Reading the host's answer changes the channel alone. -/
theorem inRead_frame {s u : State} {a : InputAnswer} (h : s.inRead = some (a, u)) :
    ∃ c, u = { s with channel := c } := by
  rcases inRead_cases h with ⟨rest, -, rfl⟩ | ⟨-, -, rfl⟩
  · exact ⟨_, rfl⟩
  · exact ⟨_, rfl⟩

theorem verdict_frame {s u : State} {a : OutputAnswer} (h : s.verdict = (a, u)) :
    ∃ c, u = { s with channel := c } := by
  rcases verdict_cases h with ⟨rest, -, rfl⟩ | ⟨-, -, rfl⟩
  · exact ⟨_, rfl⟩
  · exact ⟨_, rfl⟩

/-- Everything that IN can do. -/
theorem execIn_cases {s : State} {f : Fields} {o : Host.Outcome State Fault Refusal} (h : execIn f s = o) :
    (∃ r, s.inputDst = .error r ∧ o = .next (s.raise r)) ∨
    (∃ d, s.inputDst = .ok d ∧ s.inRead = none ∧ o = .fault .inputUnanswered) ∨
    (∃ d v c, s.inputDst = .ok d ∧ s.inRead = some (.value v, { s with channel := c }) ∧
      o = .next { s with mem := s.mem.set d.toNat v, ip := s.ip + 2#64, channel := c }) ∨
    (∃ d c, s.inputDst = .ok d ∧ s.inRead = some (.endOfData, { s with channel := c }) ∧
      o = .next ({ s with channel := c }.raise (ioError .inputExhausted))) ∨
    (∃ d c, s.inputDst = .ok d ∧ s.inRead = some (.malformed, { s with channel := c }) ∧
      o = .next ({ s with channel := c }.raise (ioError .inputMalformed))) := by
  unfold execIn at h
  cases hd : s.inputDst with
  | error r =>
    rw [hd] at h
    exact .inl ⟨r, rfl, h.symm⟩
  | ok d =>
  rw [hd] at h
  cases hi : s.inRead with
  | none =>
    rw [hi] at h
    exact .inr (.inl ⟨d, rfl, rfl, h.symm⟩)
  | some q =>
  obtain ⟨a, u⟩ := q
  obtain ⟨c, rfl⟩ := inRead_frame hi
  rw [hi] at h
  cases a with
  | endOfData => exact .inr (.inr (.inr (.inl ⟨d, c, rfl, rfl, h.symm⟩)))
  | malformed => exact .inr (.inr (.inr (.inr ⟨d, c, rfl, rfl, h.symm⟩)))
  | value v =>
    obtain ⟨p, hp, rfl, hv⟩ := inputDst_ok.mp hd
    have hw := memWrite_ok (s := { s with channel := c }) (a := p.toInt) (v := v) |>.mpr ⟨hv, rfl⟩
    simp only [hw, ok_bind] at h
    exact .inr (.inr (.inl ⟨p.toInt, v, c, rfl, rfl, h.symm⟩))

/-- Everything that OUT can do. -/
theorem execOut_cases {s : State} {f : Fields} {o : Host.Outcome State Fault Refusal} (h : execOut f s = o) :
    (∃ x, s.OperandFaults 1 f.modes.s1 x ∧ o = .next (s.raise (addressError .read x))) ∨
    (∃ v c, s.OperandIs 1 f.modes.s1 v ∧ s.verdict = (.accepted, { s with channel := c }) ∧
      o = .next { s with out := s.out ++ [v], ip := s.ip + 2#64, channel := c }) ∨
    (∃ v c, s.OperandIs 1 f.modes.s1 v ∧ s.verdict = (.rejected, { s with channel := c }) ∧
      o = .next ({ s with channel := c }.raise (ioError .outputRejected))) := by
  unfold execOut at h
  cases hv : s.val 1 f.modes.s1 with
  | error r =>
    rw [hv] at h
    obtain ⟨x, hx, rfl⟩ := val_error.mp hv
    exact .inl ⟨x, hx, h.symm⟩
  | ok v =>
  have hv' := val_ok.mp hv
  rw [hv] at h
  cases hw : s.verdict with
  | mk a u =>
  obtain ⟨c, rfl⟩ := verdict_frame hw
  cases a with
  | accepted =>
    simp only [outWrite_accepted hw] at h
    exact .inr (.inl ⟨v, c, hv', rfl, h.symm⟩)
  | rejected =>
    simp only [outWrite_rejected hw] at h
    exact .inr (.inr ⟨v, c, hv', rfl, h.symm⟩)

/-- OUT always gives a next state: it does not wait (60_exceptions.md R128). -/
theorem execOut_next (s : State) (f : Fields) : ∃ t, execOut f s = .next t := by
  rcases execOut_cases (f := f) (s := s) rfl with ⟨x, -, h⟩ | ⟨v, c, -, -, h⟩ | ⟨v, c, -, -, h⟩
  · exact ⟨_, h⟩
  · exact ⟨_, h⟩
  · exact ⟨_, h⟩

/-- A step of a Running run whose fetch and decode succeed. -/
theorem step_ok {s : State} {i : Instr} (hr : s.runState = .running) (hf : s.fetchInstr = .ok i) : step s = exec i s := by
  simp only [step]
  rw [hr, hf]

/-- A step of a Running run whose fetch or decode raises. -/
theorem step_error {s : State} {r : Raise} (hr : s.runState = .running) (hf : s.fetchInstr = .error r) :
    step s = .next (s.raise r) := by
  simp only [step]
  rw [hr, hf]

/-- A run that has ended takes no step. -/
theorem step_ended {s : State} (hr : s.runState ≠ .running) : step s = .fault .runEnded := by
  cases h : s.runState with
  | running => exact absurd h hr
  | halted => simp only [step]; rw [h]
  | failed => simp only [step]; rw [h]

/-- Everything that a step can do. -/
theorem step_cases {s : State} {o : Host.Outcome State Fault Refusal} (h : step s = o) :
    (s.runState ≠ .running ∧ o = .fault .runEnded) ∨
    (s.runState = .running ∧ ∃ r, s.fetchInstr = .error r ∧ o = .next (s.raise r)) ∨
    (s.runState = .running ∧ ∃ i, s.fetchInstr = .ok i ∧ o = exec i s) := by
  unfold step at h
  cases hr : s.runState with
  | halted => rw [hr] at h; exact .inl ⟨by simp, h.symm⟩
  | failed => rw [hr] at h; exact .inl ⟨by simp, h.symm⟩
  | running =>
    rw [hr] at h
    cases hf : s.fetchInstr with
    | ok i => rw [hf] at h; exact .inr (.inr ⟨rfl, i, rfl, h.symm⟩)
    | error r => rw [hf] at h; exact .inr (.inl ⟨rfl, r, rfl, h.symm⟩)

end Sys2Proof.Machine
end

