-- ==== Sys2Proof/Laws/PerInstr.lean ====
section
/-! SUPPORT. The family OpcodeField: the low two decimal digits of an encoded instruction are its opcode's number,
the others its mode digits, and its length is fixed by its opcode (30_encoding.md R54, R67). -/

namespace Sys2Proof.Laws.OpcodeField

/-- The fields of the encoded word of an instruction whose digits are decimal digits. -/
def Statement (i : Instr) : Prop :=
  digitsInRange i.fields.digits = true →
    (encode i).toNat % 100 = i.opcode.number ∧ modeDigits (encode i).toNat = i.fields.digits ∧
      (encode i).toNat < 100000

/-- The fields of an encoded word, for any instruction. -/
theorem fields (i : Instr) : Statement i := fun h => by
  rw [encode_toNat h]
  exact ⟨wordNumber_opcode _ _, wordNumber_digits h, wordNumber_lt h⟩

theorem add (f : Fields) : Statement (.add f) := fields _

theorem mul (f : Fields) : Statement (.mul f) := fields _

theorem input (f : Fields) : Statement (.input f) := fields _

theorem output (f : Fields) : Statement (.output f) := fields _

theorem jt (f : Fields) : Statement (.jt f) := fields _

theorem jf (f : Fields) : Statement (.jf f) := fields _

theorem lt (f : Fields) : Statement (.lt f) := fields _

theorem eq (f : Fields) : Statement (.eq f) := fields _

theorem halt (f : Fields) : Statement (.halt f) := fields _

end Sys2Proof.Laws.OpcodeField
end

