-- ==== Sys2Proof/Tests/Slice0.lean ====
section
/-! SUPPORT. The model's own tests. Expected values are those of 95_test_vectors.md (the vector's name stands with
each test) or worked out from the rule a test names. Each `witness_` theorem shows that the hypotheses of the
statement of the same name are met together, clause by clause. -/

namespace Sys2Proof.Tests

open Sys2Proof Sys2Proof.Machine

/-! Helpers. -/

/-- The start of a run of these cells, with the conventions of 95_test_vectors.md. -/
def image (c : List Word) : State := { State.reset with mem := Memory.ofImage c }

/-- The same with the host's answers to the input requests. -/
def imageIn (c : List Word) (a : List InputAnswer) : State :=
  { image c with channel := { IoChannel.default with answers := a } }

/-- The same with another standing answer and standing verdict of the host. -/
def imageHost (c : List Word) (a : Option InputAnswer) (v : OutputAnswer) : State :=
  { image c with channel := { answers := [], answersAfter := a, verdicts := [], verdictsAfter := v } }

/-- The same with OVERFLOW = Wrap. -/
def imageWrap (c : List Word) : State := { image c with params := { Params.default with overflow := .wrap } }

/-- The same with another ip. -/
def imageAt (c : List Word) (ip : Word) : State := { image c with ip := ip }

/-- The spec's parameters with CHECK_UNUSED_MODE_DIGITS = false. -/
def lax : Params := { Params.default with checkUnusedModeDigits := false }

/-- The spec's parameters with HIGH_DIGITS = Fault. -/
def strict : Params := { Params.default with highDigits := .fault }

/-- One part of the next state; none where there is no next state. -/
def after {α : Type} (o : Host.Outcome State Fault Refusal) (f : State → α) : Option α :=
  match o with
  | .next t => some (f t)
  | .fault _ => none
  | .refused _ => none

/-- How a run stands. -/
def stand (t : State) : RunState × Word × ErrRecord := (t.runState, t.ip, t.err)

/-- A run that has failed at ip. -/
def failed (ip : Word) (c : Cause) (slot : Fin 4) (value : Int) : Option (RunState × Word × ErrRecord) :=
  some (.failed, ip, ⟨c, slot, value, ip⟩)

/-- Two Immediate slots and a forced one, as in word 1101. -/
def fieldsII : Fields := ⟨⟨1, 1, 0⟩, ⟨.immediate, .immediate, .immediate⟩⟩

/-- Two Position slots and a forced one, as in word 1. -/
def fieldsPP : Fields := ⟨⟨0, 0, 0⟩, ⟨.position, .position, .immediate⟩⟩

/-- An Immediate slot and a Position one, as in word 105. -/
def fieldsIP : Fields := ⟨⟨1, 0, 0⟩, ⟨.immediate, .position, .position⟩⟩

/-! WellFormed refuses an ill-formed term at each of its checks. -/

theorem test_wellFormed_accepts : WellFormed Params.default (.add ⟨⟨1, 0, 9⟩, ⟨.immediate, .position, .immediate⟩⟩) := by
  decide

theorem test_wellFormed_refuses_digit1_above_nine :
    WellFormed Params.default (.input ⟨⟨10, 0, 0⟩, ⟨.immediate, .position, .position⟩⟩) = false := by decide

theorem test_wellFormed_refuses_digit2_above_nine :
    WellFormed lax (.halt ⟨⟨0, 10, 0⟩, ⟨.position, .position, .position⟩⟩) = false := by decide

theorem test_wellFormed_refuses_digit3_above_nine :
    WellFormed Params.default (.add ⟨⟨0, 0, 10⟩, ⟨.position, .position, .immediate⟩⟩) = false := by decide

theorem test_wellFormed_refuses_bad_value_digit :
    WellFormed lax (.output ⟨⟨2, 0, 0⟩, ⟨.position, .position, .position⟩⟩) = false := by decide

theorem test_wellFormed_refuses_bad_unused_digit :
    WellFormed Params.default (.jt ⟨⟨0, 0, 2⟩, ⟨.position, .position, .position⟩⟩) = false ∧
      WellFormed lax (.jt ⟨⟨0, 0, 2⟩, ⟨.position, .position, .position⟩⟩) = true := by decide

theorem test_wellFormed_refuses_mode_that_is_not_the_digits :
    WellFormed Params.default (.lt ⟨⟨0, 1, 0⟩, ⟨.position, .position, .immediate⟩⟩) = false := by decide

theorem test_wellFormed_refuses_dereferenced_destination :
    WellFormed Params.default (.mul ⟨⟨0, 0, 0⟩, ⟨.position, .position, .position⟩⟩) = false := by decide

/-! The decoder (V-DEC). -/

theorem test_decode_1101 : decode Params.default 1101#64 = .ok (.add fieldsII) := by decide

theorem test_decode_91101 :
    decode Params.default 91101#64 = .ok (.add ⟨⟨1, 1, 9⟩, ⟨.immediate, .immediate, .immediate⟩⟩) := by decide

theorem test_decode_2 : decode Params.default 2#64 = .ok (.mul fieldsPP) := by decide

theorem test_decode_103 :
    decode Params.default 103#64 = .ok (.input ⟨⟨1, 0, 0⟩, ⟨.immediate, .position, .position⟩⟩) := by decide

theorem test_decode_4 :
    decode Params.default 4#64 = .ok (.output ⟨⟨0, 0, 0⟩, ⟨.position, .position, .position⟩⟩) := by decide

theorem test_decode_11105 :
    decode Params.default 11105#64 = .ok (.jt ⟨⟨1, 1, 1⟩, ⟨.immediate, .immediate, .immediate⟩⟩) := by decide

theorem test_decode_1106 :
    decode Params.default 1106#64 = .ok (.jf ⟨⟨1, 1, 0⟩, ⟨.immediate, .immediate, .position⟩⟩) := by decide

theorem test_decode_20007 :
    decode Params.default 20007#64 = .ok (.lt ⟨⟨0, 0, 2⟩, ⟨.position, .position, .immediate⟩⟩) := by decide

theorem test_decode_1108 : decode Params.default 1108#64 = .ok (.eq fieldsII) := by decide

theorem test_decode_10099 :
    decode Params.default 10099#64 = .ok (.halt ⟨⟨0, 0, 1⟩, ⟨.position, .position, .immediate⟩⟩) := by decide

/-- V-DEC-18, 47, 48, 51, 55 and 57: the order of the checks. -/
theorem test_decode_order_of_checks :
    decode Params.default 22201#64 = .error ⟨.badMode, 1, 22201⟩ ∧
    decode Params.default 2000#64 = .error ⟨.badOpcode, 0, 2000⟩ ∧
    decode Params.default (-1#64) = .error ⟨.negativeWord, 0, -1⟩ ∧
    decode Params.default (-201#64) = .error ⟨.negativeWord, 0, -201⟩ ∧
    decode strict 200201#64 = .error ⟨.badMode, 1, 200201⟩ ∧
    decode Params.default 9223372036854775807#64 = .error ⟨.badMode, 1, 9223372036854775807⟩ := by decide

/-- V-DEC-21, 31 and 52: the three settings. -/
theorem test_decode_parameters :
    decode Params.default 2003#64 = .error ⟨.badMode, 2, 2003⟩ ∧
    (decode lax 2003#64).toOption = some (.input ⟨⟨0, 2, 0⟩, ⟨.immediate, .position, .position⟩⟩) ∧
    decode Params.default 20005#64 = .error ⟨.badMode, 3, 20005⟩ ∧
    decode Params.default 100001#64 = .ok (.add fieldsPP) ∧
    decode strict 100001#64 = .error ⟨.highDigits, 0, 100001⟩ := by decide

theorem test_encode : encode (.add fieldsII) = 1101#64 ∧
    encode (.halt ⟨⟨0, 0, 1⟩, ⟨.position, .position, .immediate⟩⟩) = 10099#64 := by decide

/-- Cell 0 holds the low 64 bits, so `JT #1, #0` has 1105 in bits 0 to 63 and 1 in bits 64 to 127. -/
theorem test_table_word : decodeTableWord 192 (1105 + 1 * 2 ^ 64) =
    some (.jt ⟨⟨1, 1, 0⟩, ⟨.immediate, .immediate, .position⟩⟩) := by decide

theorem test_withFetchWord : after (step (State.reset.withFetchWord 192 (1105 + 1 * 2 ^ 64 + 7 * 2 ^ 128))) stand =
    some (.running, 7#64, ErrRecord.none) := by decide

/-! One step of each instruction. -/

/-- W1. -/
theorem test_add : after (step (image [1#64, 0#64, 0#64, 0#64, 99#64])) (fun t => (t.ip, t.mem)) =
    some (4#64, Memory.ofImage [2#64, 0#64, 0#64, 0#64, 99#64]) := by decide

/-- V-ARITH-4 and 5. -/
theorem test_add_overflow :
    after (step (image [1101#64, 9223372036854775807#64, 1#64, 5#64, 99#64, 0#64])) stand =
      failed 0#64 (.overflow .add) 0 0 ∧
    after (step (imageWrap [1101#64, 9223372036854775807#64, 1#64, 5#64, 99#64, 0#64])) (fun t => t.mem.get 5) =
      some 9223372036854775808#64 := by decide

/-- V-ARITH-2. -/
theorem test_mul_is_signed :
    after (step (image [1102#64, -3#64, 7#64, 5#64, 99#64, 0#64])) (fun t => (t.ip, t.mem.get 5)) =
      some (4#64, -21#64) := by decide

/-- V-ARITH-16 and 20. -/
theorem test_binary_faults :
    after (step (image [1101#64, 1#64, 1#64, 7#64, 99#64, 0#64])) stand = failed 0#64 (.address .write) 0 7 ∧
    after (step (image [1#64, 9#64, 0#64, 9#64])) stand = failed 0#64 (.address .read) 0 9 := by decide

/-- V-IO-1 and 9. -/
theorem test_in :
    after (step (imageIn [3#64, 3#64, 99#64, 0#64] [.value 42#64])) (fun t => (t.ip, t.mem.get 3, t.channel.answers)) =
      some (2#64, 42#64, []) ∧
    after (step (imageIn [3#64, 0#64, 99#64] [.value 99#64])) (fun t => (t.ip, t.mem.get 0)) =
      some (2#64, 99#64) := by decide

/-- V-IO-2 and 5: at the end of the data; and no request for a bad destination. -/
theorem test_in_faults :
    after (step (image [3#64, 3#64, 99#64, 0#64])) stand = failed 0#64 (.io .inputExhausted) 0 0 ∧
    after (step (imageIn [3#64, 5#64, 99#64, 0#64] [.value 42#64])) (fun t => (stand t, t.channel.answers)) =
      some ((.failed, 0#64, ⟨.address .write, 0, 5, 0#64⟩), [.value 42#64]) := by decide

/-- V-IO-11 and 12. -/
theorem test_out :
    after (step (image [104#64, -5#64, 99#64])) (fun t => (t.ip, t.out)) = some (2#64, [-5#64]) ∧
    after (step (image [4#64, 3#64, 99#64, 77#64])) (fun t => (t.ip, t.out)) = some (2#64, [77#64]) := by decide

/-- The second step of V-IO-14. -/
theorem test_out_rejected :
    after (step { imageAt [104#64, 1#64, 104#64, 2#64, 99#64] 2#64 with
        out := [1#64], channel := { IoChannel.default with verdicts := [.rejected] } }) (fun t => (stand t, t.out)) =
      some ((.failed, 2#64, ⟨.io .outputRejected, 0, 0, 2#64⟩), [1#64]) := by decide

/-- V-JMP-3 and 10. -/
theorem test_jt :
    after (step (image [1105#64, -1#64, 7#64, 99#64, 0#64, 0#64, 0#64, 99#64])) (·.ip) = some 7#64 ∧
    after (step (image [5#64, 0#64, 5#64, 99#64, 0#64, 3#64])) (·.ip) = some 3#64 := by decide

/-- V-JMP-4, 5, 6 and 7. -/
theorem test_jf_and_negative_targets :
    after (step (image [1106#64, 0#64, 7#64, 99#64, 0#64, 0#64, 0#64, 99#64])) (·.ip) = some 7#64 ∧
    after (step (image [1106#64, 5#64, 7#64, 99#64, 0#64, 0#64, 0#64, 99#64])) (·.ip) = some 3#64 ∧
    after (step (image [1105#64, 1#64, -3#64, 99#64])) stand = failed 0#64 (.address .jump) 0 (-3) ∧
    after (step (image [1106#64, 1#64, -3#64, 99#64])) (·.ip) = some 3#64 := by decide

/-- V-CMP-1 and 3. -/
theorem test_lt :
    after (step (image [1107#64, -1#64, 0#64, 5#64, 99#64, 7#64])) (fun t => t.mem.get 5) = some 1#64 ∧
    after (step (image [1107#64, 5#64, 5#64, 5#64, 99#64, 7#64])) (fun t => t.mem.get 5) = some 0#64 := by decide

/-- V-CMP-6 and 9. -/
theorem test_eq :
    after (step (image [1108#64, 5#64, -5#64, 5#64, 99#64, 7#64])) (fun t => t.mem.get 5) = some 0#64 ∧
    after (step (image [8#64, 5#64, 5#64, 0#64, 99#64, 7#64])) (fun t => t.mem) =
      some (Memory.ofImage [1#64, 5#64, 5#64, 0#64, 99#64, 7#64]) := by decide

/-- V-HALT-1. -/
theorem test_halt : after (step (image [99#64])) (fun t => (stand t, t.mem, t.out)) =
    some ((.halted, 0#64, ErrRecord.none), Memory.ofImage [99#64], []) := by decide

/-- V-DEC-R1, and the last step of W10. -/
theorem test_step_failures :
    after (step (image [0#64])) stand = failed 0#64 (.decode .badOpcode) 0 0 ∧
    after (step (imageAt [5#64, 2#64, 3#64, 0#64] 4#64)) stand = failed 4#64 (.address .fetch) 0 4 := by decide

/-- W12: seeding cells 1 and 2. -/
theorem test_seeding : seedImage (seedImage [1#64, 0#64, 0#64, 0#64, 99#64] 1 4#64) 2 4#64 =
    [1#64, 4#64, 4#64, 0#64, 99#64] := by decide

/-- The first two lines of P1 with a label for the counter cell, which then stands at address 2 + 4; and P1's second
line disassembled and written. -/
theorem test_assembly :
    assemble [.line (.output (.position (.label "n"))), .line (.add (.position (.label "n")) (.immediate (.number (-1#64)))
      (.label "n")), .label "n", .line (.word (.number 3#64))] =
      some [4#64, 6#64, 1001#64, 6#64, -1#64, 6#64, 3#64] ∧
    disassemble Params.default [1001#64, 13#64, -1#64, 13#64, 1006#64] =
      some (.add (.position 13#64) (.immediate (-1#64)) 13#64) ∧
    (AsmLine.add (.position 13#64) (.immediate (-1#64)) 13#64).text = "ADD [13], #-1, 13" := by decide

/-! Witnesses of the statements' hypotheses. -/

theorem after_some {α : Type} {o : Host.Outcome State Fault Refusal} {f : State → α} {x : α}
    (h : after o f = some x) : ∃ t, o = .next t ∧ f t = x := by
  cases o with
  | next t => exact ⟨t, rfl, by simpa [after] using h⟩
  | fault _ => simp [after] at h
  | refused _ => simp [after] at h

theorem operandImmediate {s : State} {k : Nat} {v : Word} (h : s.CellIs (s.ip.toNat + k) v) :
    s.OperandIs k .immediate v := h

theorem operandPosition {s : State} {k : Nat} {p v : Word} (h : s.CellIs (s.ip.toNat + k) p)
    (h' : s.CellIs p.toInt v) : s.OperandIs k .position v := ⟨p, h, h'⟩

theorem paramFaults {s : State} {k : Nat} {m : Mode} (h : ¬ s.mem.valid (s.ip.toNat + k)) :
    s.OperandFaults k m (s.ip.toNat + k) := Or.inl ⟨rfl, h⟩

theorem addressFaults {s : State} {k : Nat} {p : Word} (h : s.CellIs (s.ip.toNat + k) p)
    (h' : ¬ s.mem.valid p.toInt) : s.OperandFaults k .position p.toInt := Or.inr ⟨rfl, p, h, rfl, h'⟩

/-- A run that has not failed meets the invariant when its memory and its ip do. -/
theorem inv_of_running {s : State} (hm : s.mem.wf = true) (hl : s.mem.len ≤ maxMemLen)
    (hi : s.ip.toNat ≤ 9223372036854775811) (hr : s.runState = .running) (he : s.err = ErrRecord.none) : s.Inv := by
  refine ⟨hm, hl, hi, ⟨fun _ => he, fun h => ?_, fun h => ?_, ?_, ?_, ?_⟩⟩
  · rw [hr] at h; cases h
  · rw [hr] at h; cases h
  · rw [he]; decide
  · rw [he]; decide
  · rw [he]; decide

/-- `ADD #3, #4, 5`, with the destination the last cell (V-ARITH-1). -/
def addRun : State := image [1101#64, 3#64, 4#64, 5#64, 99#64, 0#64]

/-- `ADD [0], [0], 0` at the very end of memory. -/
def addPosition : State := image [1#64, 0#64, 0#64, 0#64]

theorem addRun_operands : addRun.OperandIs 1 fieldsII.modes.s1 3#64 ∧ addRun.OperandIs 2 fieldsII.modes.s2 4#64 ∧
    addRun.CellIs (addRun.ip.toNat + 3) 5#64 ∧ addRun.mem.valid (5#64 : Word).toInt :=
  ⟨operandImmediate (by decide), operandImmediate (by decide), by decide, by decide⟩

theorem addPosition_operands : addPosition.OperandIs 1 fieldsPP.modes.s1 1#64 ∧
    addPosition.OperandIs 2 fieldsPP.modes.s2 1#64 ∧ addPosition.CellIs (addPosition.ip.toNat + 3) 0#64 ∧
    addPosition.mem.valid (0#64 : Word).toInt :=
  ⟨operandPosition (p := 0#64) (by decide) (by decide), operandPosition (p := 0#64) (by decide) (by decide),
    by decide, by decide⟩

theorem witness_DecodeInvertsEncode :
    WellFormed lax (.halt ⟨⟨9, 9, 9⟩, ⟨.position, .position, .position⟩⟩) = true ∧
    WellFormed Params.default (.add ⟨⟨1, 0, 9⟩, ⟨.immediate, .position, .immediate⟩⟩) = true := by decide

theorem witness_DecodedDigitsAreTheWordsDigits : 0 ≤ (91001#64 : Word).toInt ∧
    decode Params.default 91001#64 = .ok (.add ⟨⟨0, 1, 9⟩, ⟨.position, .immediate, .immediate⟩⟩) := by decide

theorem witness_DecodedModesFollowClassAndDigit :
    decode Params.default 10106#64 = .ok (.jf ⟨⟨1, 0, 1⟩, ⟨.immediate, .position, .immediate⟩⟩) := by decide

/-- One word for each clause. -/
theorem witness_FirstDecodeCheckNamesTheError :
    (-1#64 : Word).toInt < 0 ∧
    (0 ≤ (0#64 : Word).toInt ∧ (0#64 : Word).toNat % 100 ∉ [1, 2, 3, 4, 5, 6, 7, 8, 99]) ∧
    (0 ≤ (201#64 : Word).toInt ∧ (201#64 : Word).toNat % 100 = Opcode.add.number ∧
      Checked Params.default Opcode.add.classes.s1 ∧ 1 < (201#64 : Word).toNat / 100 % 10) ∧
    (0 ≤ (2001#64 : Word).toInt ∧ (2001#64 : Word).toNat % 100 = Opcode.add.number ∧
      ¬ (Checked Params.default Opcode.add.classes.s1 ∧ 1 < (2001#64 : Word).toNat / 100 % 10) ∧
      Checked Params.default Opcode.add.classes.s2 ∧ 1 < (2001#64 : Word).toNat / 1000 % 10) ∧
    (0 ≤ (20005#64 : Word).toInt ∧ (20005#64 : Word).toNat % 100 = Opcode.jt.number ∧
      ¬ (Checked Params.default Opcode.jt.classes.s1 ∧ 1 < (20005#64 : Word).toNat / 100 % 10) ∧
      ¬ (Checked Params.default Opcode.jt.classes.s2 ∧ 1 < (20005#64 : Word).toNat / 1000 % 10) ∧
      Checked Params.default Opcode.jt.classes.s3 ∧ 1 < (20005#64 : Word).toNat / 10000 % 10) ∧
    (0 ≤ (100099#64 : Word).toInt ∧ (100099#64 : Word).toNat % 100 = Opcode.halt.number ∧
      ¬ (Checked strict Opcode.halt.classes.s1 ∧ 1 < (100099#64 : Word).toNat / 100 % 10) ∧
      ¬ (Checked strict Opcode.halt.classes.s2 ∧ 1 < (100099#64 : Word).toNat / 1000 % 10) ∧
      ¬ (Checked strict Opcode.halt.classes.s3 ∧ 1 < (100099#64 : Word).toNat / 10000 % 10) ∧
      strict.highDigits = .fault ∧ 100000 ≤ (100099#64 : Word).toNat) := by
  unfold Checked; decide

/-- A destination digit of ADD and of IN at its largest value. -/
theorem witness_ForcedSlotDigitIsIgnored :
    (decode Params.default 1001#64 = .ok (.add ⟨⟨0, 1, 0⟩, ⟨.position, .immediate, .immediate⟩⟩) ∧
      0 ≤ (91001#64 : Word).toInt ∧ (1001#64 : Word).toNat % 10000 = (91001#64 : Word).toNat % 10000 ∧
      (1001#64 : Word).toNat / 100000 = (91001#64 : Word).toNat / 100000) ∧
    (decode Params.default 3#64 = .ok (.input ⟨⟨0, 0, 0⟩, ⟨.immediate, .position, .position⟩⟩) ∧
      0 ≤ (903#64 : Word).toInt ∧ (3#64 : Word).toNat % 100 = (903#64 : Word).toNat % 100 ∧
      (3#64 : Word).toNat / 1000 = (903#64 : Word).toNat / 1000) := by decide

theorem witness_HighDigitsHaveNoEffectWhenIgnored :
    Params.default.highDigits = .ignore ∧ 0 ≤ (9223372036854701101#64 : Word).toInt ∧
    (1101#64 : Word).toNat % 100000 = (9223372036854701101#64 : Word).toNat % 100000 ∧
    decode Params.default 1101#64 = .ok (.add fieldsII) := by decide

theorem witness_LengthFollowsFromTheOpcodeNumber :
    decode Params.default 1#64 = .ok (.add fieldsPP) ∧
    decode Params.default 3#64 = .ok (.input ⟨⟨0, 0, 0⟩, ⟨.immediate, .position, .position⟩⟩) ∧
    decode Params.default 6#64 = .ok (.jf ⟨⟨0, 0, 0⟩, ⟨.position, .position, .position⟩⟩) ∧
    decode Params.default 99#64 = .ok (.halt ⟨⟨0, 0, 0⟩, ⟨.position, .position, .position⟩⟩) := by decide

theorem witness_DisassemblyInvertsTheCanonicalEncoding : ∀ n, (AsmLine.halt : AsmLine Word) ≠ .word n := by
  intro n h; cases h

theorem witness_LabelStandsForTheNextCell :
    assemble ([.line .halt] ++ .label "n" :: [.line (.word (.label "n"))]) = some [99#64, 1#64] := by decide

/-- The empty image and the largest one. -/
theorem witness_StartLoadsTheImage :
    ([] : List Word).length ≤ 9223372036854775808 ∧
    (List.replicate 9223372036854775808 (0#64 : Word)).length ≤ 9223372036854775808 := by
  simp only [List.length_replicate, List.length_nil]; decide

theorem witness_StartTakesTheParametersAndTheHost :
    ∃ s, State.start strict IoChannel.default [] = .next s ∧ s.mem.len = 0 :=
  after_some (f := fun t => t.mem.len) (by decide)

/-- Seeding the last cell of an image. -/
theorem witness_SeedingChangesOneCell : 1 < [1#64, 99#64].length ∧
    (∃ s, State.start Params.default IoChannel.default [1#64, 99#64] = .next s ∧ s.mem.len = 2) ∧
    ∃ t, State.start Params.default IoChannel.default (seedImage [1#64, 99#64] 1 4#64) = .next t ∧ t.mem.len = 2 :=
  ⟨by decide, after_some (f := fun t => t.mem.len) (by decide), after_some (f := fun t => t.mem.len) (by decide)⟩

theorem witness_StartMeetsTheInvariant :
    ∃ s, State.start strict IoChannel.default [1101#64, -1#64, 0#64, 0#64] = .next s ∧ s.mem.len = 4 :=
  after_some (f := fun t => t.mem.len) (by decide)

theorem witness_StepKeepsTheInvariant : addRun.Inv ∧ ∃ t, step addRun = .next t ∧ t.ip = 4#64 :=
  ⟨inv_of_running (by decide) (by decide) (by decide) rfl rfl, after_some (f := State.ip) (by decide)⟩

theorem witness_StepRunsTheDecodedInstruction : addRun.runState = .running ∧ addRun.ip.toNat < addRun.mem.len ∧
    decode addRun.params (addRun.mem.get addRun.ip.toNat) = .ok (.add fieldsII) := by decide

/-- ip exactly at MEM_LEN. -/
theorem witness_FetchPastTheEndFails : (imageAt [5#64, 2#64, 3#64, 0#64] 4#64).runState = .running ∧
    (imageAt [5#64, 2#64, 3#64, 0#64] 4#64).mem.len ≤ (imageAt [5#64, 2#64, 3#64, 0#64] 4#64).ip.toNat := by decide

theorem witness_DecodeFailureEndsTheRun : (image [201#64]).runState = .running ∧
    (image [201#64]).ip.toNat < (image [201#64]).mem.len ∧
    decode (image [201#64]).params ((image [201#64]).mem.get (image [201#64]).ip.toNat) =
      .error ⟨.badMode, 1, 201⟩ := by decide

theorem witness_RunningRunsStepUnlessTheHostOwesAnAnswer :
    ({ image [99#64] with runState := .halted } : State).runState = .halted ∧
    ((image [0#64]).raise (decodeRaise ⟨.badOpcode, 0, 0⟩)).runState = .failed ∧
    (imageHost [3#64, 1#64] none .accepted).runState = .running := by decide

theorem witness_OnlyHaltSucceeds : ∃ t, step (image [99#64]) = .next t ∧ t.runState = .halted :=
  after_some (f := State.runState) (by decide)

theorem witness_FailureIsPrecise :
    ∃ t, step (image [1101#64, 1#64, 1#64, 7#64]) = .next t ∧ t.runState = .failed :=
  after_some (f := State.runState) (by decide)

theorem witness_OnlyFailureWritesTheErrorRecord : ∃ t, step addRun = .next t ∧ t.runState ≠ .failed := by
  obtain ⟨t, h, hr⟩ := after_some (o := step addRun) (f := State.runState) (x := .running) (by decide)
  exact ⟨t, h, by rw [hr]; decide⟩

/-- The conditions on the state, and the step that does not fail, for one word of every instruction. -/
theorem witness_IpUpdateOfEachInstruction :
    ∀ w ∈ [1101#64, 1102#64, 3#64, 104#64, 1105#64, 1106#64, 1107#64, 1108#64, 99#64],
      (imageIn [w, 1#64, 2#64, 3#64] [.value 5#64]).runState = .running ∧
      (imageIn [w, 1#64, 2#64, 3#64] [.value 5#64]).ip.toNat < (imageIn [w, 1#64, 2#64, 3#64] [.value 5#64]).mem.len ∧
      (decode Params.default w).isOk = true ∧
      after (step (imageIn [w, 1#64, 2#64, 3#64] [.value 5#64])) (fun t => decide (t.runState ≠ .failed)) =
        some true := by
  intro w hw
  simp only [List.mem_cons, List.not_mem_nil, or_false] at hw
  rcases hw with rfl | rfl | rfl | rfl | rfl | rfl | rfl | rfl | rfl <;> decide

/-- A next state of an instruction, one of a step, and the address at MEM_LEN. -/
theorem witness_MemLenIsFixed : (∃ t, exec (.add fieldsII) addRun = .next t ∧ t.ip = 4#64) ∧
    (∃ t, step addRun = .next t ∧ t.ip = 4#64) ∧ (addRun.mem.len : Int) ≤ 6 :=
  ⟨after_some (f := State.ip) (by decide), after_some (f := State.ip) (by decide), by decide⟩

theorem witness_OnlyOutAppendsOneRecord : ∃ t, step (image [104#64, -5#64]) = .next t ∧ t.out = [-5#64] :=
  after_some (f := State.out) (by decide)

theorem witness_OneHostRequestPerInstruction :
    ∃ t, step (imageIn [3#64, 0#64] [.value 5#64]) = .next t ∧ t.channel.answers = [] :=
  after_some (f := fun t => t.channel.answers) (by decide)

theorem witness_OtherInstructionsDoNotDependOnTheHost :
    (∀ f, decode addRun.params (addRun.mem.get addRun.ip.toNat) ≠ .ok (.input f)) ∧
    (∀ f, decode addRun.params (addRun.mem.get addRun.ip.toNat) ≠ .ok (.output f)) ∧
    ∃ t, step addRun = .next t ∧ t.ip = 4#64 := by
  have h : decode addRun.params (addRun.mem.get addRun.ip.toNat) = .ok (.add fieldsII) := by decide
  refine ⟨fun f h' => ?_, fun f h' => ?_, after_some (f := State.ip) (by decide)⟩
  · rw [h] at h'; cases h'
  · rw [h] at h'; cases h'

/-- `ADD #1, #98, 4` writes a HALT at the next instruction's address, and so does `IN 2` for the answer 99. -/
theorem witness_WrittenWordRunsNext :
    ((image [1101#64, 1#64, 98#64, 4#64, 0#64]).Inv ∧ (image [1101#64, 1#64, 98#64, 4#64, 0#64]).runState = .running ∧
      (image [1101#64, 1#64, 98#64, 4#64, 0#64]).OperandIs 1 fieldsII.modes.s1 1#64 ∧
      (image [1101#64, 1#64, 98#64, 4#64, 0#64]).OperandIs 2 fieldsII.modes.s2 98#64 ∧
      (image [1101#64, 1#64, 98#64, 4#64, 0#64]).CellIs
        ((image [1101#64, 1#64, 98#64, 4#64, 0#64]).ip.toNat + 3) 4#64 ∧
      (4#64 : Word).toInt = (image [1101#64, 1#64, 98#64, 4#64, 0#64]).ip.toNat + 4 ∧
      (image [1101#64, 1#64, 98#64, 4#64, 0#64]).mem.valid (4#64 : Word).toInt ∧
      inI64 ((1#64 : Word).toInt + (98#64 : Word).toInt) ∧
      decode (image [1101#64, 1#64, 98#64, 4#64, 0#64]).params (1#64 + 98#64) =
        .ok (.halt ⟨⟨0, 0, 0⟩, ⟨.position, .position, .position⟩⟩)) ∧
    ((imageIn [3#64, 2#64, 0#64] [.value 99#64]).Inv ∧ (imageIn [3#64, 2#64, 0#64] [.value 99#64]).runState = .running ∧
      (imageIn [3#64, 2#64, 0#64] [.value 99#64]).CellIs ((imageIn [3#64, 2#64, 0#64] [.value 99#64]).ip.toNat + 1) 2#64 ∧
      (2#64 : Word).toInt = (imageIn [3#64, 2#64, 0#64] [.value 99#64]).ip.toNat + 2 ∧
      (imageIn [3#64, 2#64, 0#64] [.value 99#64]).mem.valid (2#64 : Word).toInt ∧
      (imageIn [3#64, 2#64, 0#64] [.value 99#64]).channel.answers = .value 99#64 :: [] ∧
      decode (imageIn [3#64, 2#64, 0#64] [.value 99#64]).params 99#64 =
        .ok (.halt ⟨⟨0, 0, 0⟩, ⟨.position, .position, .position⟩⟩)) :=
  ⟨⟨inv_of_running (by decide) (by decide) (by decide) rfl rfl, rfl, operandImmediate (by decide),
      operandImmediate (by decide), by decide, by decide, by decide, by decide, by decide⟩,
    inv_of_running (by decide) (by decide) (by decide) rfl rfl, rfl, by decide, by decide, by decide, by decide,
    by decide⟩

/-- The lowest and the highest valid address, and the ones beside them. -/
theorem witness_MemReadChecksBounds :
    (0 ≤ (0 : Int) ∧ (0 : Int) < addRun.mem.len) ∧ (0 ≤ (5 : Int) ∧ (5 : Int) < addRun.mem.len) ∧
    ¬ (0 ≤ (-1 : Int) ∧ (-1 : Int) < addRun.mem.len) ∧ ¬ (0 ≤ (6 : Int) ∧ (6 : Int) < addRun.mem.len) := by decide

/-- The same for a write. -/
theorem witness_MemWriteChangesOneCell : addRun.mem.wf = true ∧
    (0 ≤ (0 : Int) ∧ (0 : Int) < addRun.mem.len) ∧ (0 ≤ (5 : Int) ∧ (5 : Int) < addRun.mem.len) ∧
    ¬ (0 ≤ (-1 : Int) ∧ (-1 : Int) < addRun.mem.len) ∧ ¬ (0 ≤ (6 : Int) ∧ (6 : Int) < addRun.mem.len) := by decide

/-- Both modes, and the sum and the product at the edge of i64. -/
theorem witness_ArithmeticStoresTheExactResult :
    (addRun.OperandIs 1 fieldsII.modes.s1 3#64 ∧ addRun.OperandIs 2 fieldsII.modes.s2 4#64 ∧
      addRun.CellIs (addRun.ip.toNat + 3) 5#64 ∧ addRun.mem.valid (5#64 : Word).toInt) ∧
    (addPosition.OperandIs 1 fieldsPP.modes.s1 1#64 ∧ addPosition.OperandIs 2 fieldsPP.modes.s2 1#64 ∧
      addPosition.CellIs (addPosition.ip.toNat + 3) 0#64 ∧ addPosition.mem.valid (0#64 : Word).toInt) ∧
    inI64 ((3#64 : Word).toInt + (4#64 : Word).toInt) ∧ inI64 ((3#64 : Word).toInt * (4#64 : Word).toInt) ∧
    inI64 ((9223372036854775807#64 : Word).toInt + (0#64 : Word).toInt) ∧
    inI64 ((2147483648#64 : Word).toInt * (-4294967296#64 : Word).toInt) :=
  ⟨addRun_operands, addPosition_operands, by decide, by decide, by decide, by decide⟩

/-- V-ARITH-5 and 9: `ADD #2^63-1, #1` wraps. -/
theorem witness_WrapWritesTheLowBits :
    (imageWrap [1101#64, 9223372036854775807#64, 1#64, 0#64]).params.overflow = .wrap ∧
    (imageWrap [1101#64, 9223372036854775807#64, 1#64, 0#64]).OperandIs 1 fieldsII.modes.s1 9223372036854775807#64 ∧
    (imageWrap [1101#64, 9223372036854775807#64, 1#64, 0#64]).OperandIs 2 fieldsII.modes.s2 1#64 ∧
    (imageWrap [1101#64, 9223372036854775807#64, 1#64, 0#64]).CellIs
      ((imageWrap [1101#64, 9223372036854775807#64, 1#64, 0#64]).ip.toNat + 3) 0#64 ∧
    (imageWrap [1101#64, 9223372036854775807#64, 1#64, 0#64]).mem.valid (0#64 : Word).toInt :=
  ⟨rfl, operandImmediate (by decide), operandImmediate (by decide), by decide, by decide⟩

/-- The smallest sum and product above i64. -/
theorem witness_OverflowFaultRaises :
    (image [1101#64, 9223372036854775807#64, 1#64, 0#64]).params.overflow = .fault ∧
    (image [1101#64, 9223372036854775807#64, 1#64, 0#64]).OperandIs 1 fieldsII.modes.s1 9223372036854775807#64 ∧
    (image [1101#64, 9223372036854775807#64, 1#64, 0#64]).OperandIs 2 fieldsII.modes.s2 1#64 ∧
    (image [1101#64, 9223372036854775807#64, 1#64, 0#64]).CellIs
      ((image [1101#64, 9223372036854775807#64, 1#64, 0#64]).ip.toNat + 3) 0#64 ∧
    ¬ inI64 ((9223372036854775807#64 : Word).toInt + (1#64 : Word).toInt) ∧
    (image [1102#64, 4611686018427387904#64, 2#64, 0#64]).params.overflow = .fault ∧
    (image [1102#64, 4611686018427387904#64, 2#64, 0#64]).OperandIs 1 fieldsII.modes.s1 4611686018427387904#64 ∧
    (image [1102#64, 4611686018427387904#64, 2#64, 0#64]).OperandIs 2 fieldsII.modes.s2 2#64 ∧
    (image [1102#64, 4611686018427387904#64, 2#64, 0#64]).CellIs
      ((image [1102#64, 4611686018427387904#64, 2#64, 0#64]).ip.toNat + 3) 0#64 ∧
    ¬ inI64 ((4611686018427387904#64 : Word).toInt * (2#64 : Word).toInt) :=
  ⟨rfl, operandImmediate (by decide), operandImmediate (by decide), by decide, by decide,
    rfl, operandImmediate (by decide), operandImmediate (by decide), by decide, by decide⟩

theorem witness_ComparisonStoresOneOrZero :
    addRun.OperandIs 1 fieldsII.modes.s1 3#64 ∧ addRun.OperandIs 2 fieldsII.modes.s2 4#64 ∧
    addRun.CellIs (addRun.ip.toNat + 3) 5#64 ∧ addRun.mem.valid (5#64 : Word).toInt := addRun_operands

/-- V-ARITH-18, 19 and 24, and a first parameter that is missing. -/
theorem witness_BinaryOperandReadFaults :
    (image [1001#64, 6#64, 5#64, 0#64, 99#64]).OperandFaults 1 .position (6#64 : Word).toInt ∧
    (image [1#64]).OperandFaults 1 .position ((image [1#64]).ip.toNat + 1) ∧
    (image [101#64, 5#64, 7#64, 0#64]).OperandIs 1 .immediate 5#64 ∧
    (image [101#64, 5#64, 7#64, 0#64]).OperandFaults 2 .position (7#64 : Word).toInt ∧
    (image [1101#64, 1#64, 1#64]).OperandIs 1 fieldsII.modes.s1 1#64 ∧
    (image [1101#64, 1#64, 1#64]).OperandIs 2 fieldsII.modes.s2 1#64 ∧
    ¬ (image [1101#64, 1#64, 1#64]).mem.valid ((image [1101#64, 1#64, 1#64]).ip.toNat + 3) :=
  ⟨addressFaults (by decide) (by decide), paramFaults (by decide), operandImmediate (by decide),
    addressFaults (by decide) (by decide), operandImmediate (by decide), operandImmediate (by decide), by decide⟩

/-- V-ARITH-16 and 17: the destination at MEM_LEN and at -1. -/
theorem witness_BinaryDestinationFault :
    ((image [1101#64, 1#64, 1#64, 4#64]).OperandIs 1 fieldsII.modes.s1 1#64 ∧
      (image [1101#64, 1#64, 1#64, 4#64]).OperandIs 2 fieldsII.modes.s2 1#64 ∧
      (image [1101#64, 1#64, 1#64, 4#64]).CellIs ((image [1101#64, 1#64, 1#64, 4#64]).ip.toNat + 3) 4#64 ∧
      ¬ (image [1101#64, 1#64, 1#64, 4#64]).mem.valid (4#64 : Word).toInt ∧
      inI64 ((1#64 : Word).toInt + (1#64 : Word).toInt) ∧ inI64 ((1#64 : Word).toInt * (1#64 : Word).toInt)) ∧
    ((imageWrap [1101#64, 1#64, 1#64, -1#64]).OperandIs 1 fieldsII.modes.s1 1#64 ∧
      (imageWrap [1101#64, 1#64, 1#64, -1#64]).OperandIs 2 fieldsII.modes.s2 1#64 ∧
      (imageWrap [1101#64, 1#64, 1#64, -1#64]).CellIs ((imageWrap [1101#64, 1#64, 1#64, -1#64]).ip.toNat + 3) (-1#64) ∧
      ¬ (imageWrap [1101#64, 1#64, 1#64, -1#64]).mem.valid (-1#64 : Word).toInt ∧
      (imageWrap [1101#64, 1#64, 1#64, -1#64]).params.overflow = .wrap) :=
  ⟨⟨operandImmediate (by decide), operandImmediate (by decide), by decide, by decide, by decide, by decide⟩,
    operandImmediate (by decide), operandImmediate (by decide), by decide, by decide, rfl⟩

/-- A next state of each of the four, a destination and a destination that cannot be read. -/
theorem witness_BinaryFrame : addRun.mem.wf = true ∧
    (∀ i ∈ [Instr.add fieldsII, Instr.mul fieldsII, Instr.lt fieldsII, Instr.eq fieldsII],
      after (exec i addRun) State.ip = some 4#64) ∧ addRun.dst 3 = .ok 5 ∧
    (image [1101#64, 1#64, 1#64]).mem.wf = true ∧
    after (exec (.add fieldsII) (image [1101#64, 1#64, 1#64])) State.ip = some 0#64 ∧
    (image [1101#64, 1#64, 1#64]).dst 3 = .error (addressError .read 3) := by decide

/-- A list with one answer, and the standing answer; the destination is the last cell, then the first. -/
theorem witness_InputStoresTheHostsValue :
    ((imageIn [3#64, 1#64] [.value 42#64]).CellIs ((imageIn [3#64, 1#64] [.value 42#64]).ip.toNat + 1) 1#64 ∧
      (imageIn [3#64, 1#64] [.value 42#64]).mem.valid (1#64 : Word).toInt ∧
      (imageIn [3#64, 1#64] [.value 42#64]).channel.answers = .value 42#64 :: []) ∧
    ((imageHost [3#64, 0#64] (some (.value 7#64)) .accepted).CellIs
        ((imageHost [3#64, 0#64] (some (.value 7#64)) .accepted).ip.toNat + 1) 0#64 ∧
      (imageHost [3#64, 0#64] (some (.value 7#64)) .accepted).mem.valid (0#64 : Word).toInt ∧
      (imageHost [3#64, 0#64] (some (.value 7#64)) .accepted).channel.answers = [] ∧
      (imageHost [3#64, 0#64] (some (.value 7#64)) .accepted).channel.answersAfter = some (.value 7#64)) := by decide

/-- V-IO-7, a destination at MEM_LEN, V-IO-2 and V-IO-3 from the list and from the standing answer. -/
theorem witness_InputFailures :
    ¬ (image [3#64]).mem.valid ((image [3#64]).ip.toNat + 1) ∧
    ((image [3#64, 2#64]).CellIs ((image [3#64, 2#64]).ip.toNat + 1) 2#64 ∧
      ¬ (image [3#64, 2#64]).mem.valid (2#64 : Word).toInt) ∧
    ((imageIn [3#64, 1#64] [.endOfData]).CellIs ((imageIn [3#64, 1#64] [.endOfData]).ip.toNat + 1) 1#64 ∧
      (imageIn [3#64, 1#64] [.endOfData]).mem.valid (1#64 : Word).toInt ∧
      (imageIn [3#64, 1#64] [.endOfData]).channel.answers = .endOfData :: []) ∧
    ((imageIn [3#64, 1#64] [.malformed]).CellIs ((imageIn [3#64, 1#64] [.malformed]).ip.toNat + 1) 1#64 ∧
      (imageIn [3#64, 1#64] [.malformed]).mem.valid (1#64 : Word).toInt ∧
      (imageIn [3#64, 1#64] [.malformed]).channel.answers = .malformed :: []) ∧
    ((image [3#64, 1#64]).CellIs ((image [3#64, 1#64]).ip.toNat + 1) 1#64 ∧
      (image [3#64, 1#64]).mem.valid (1#64 : Word).toInt ∧ (image [3#64, 1#64]).channel.answers = [] ∧
      (image [3#64, 1#64]).channel.answersAfter = some .endOfData) ∧
    ((imageHost [3#64, 1#64] (some .malformed) .accepted).CellIs
        ((imageHost [3#64, 1#64] (some .malformed) .accepted).ip.toNat + 1) 1#64 ∧
      (imageHost [3#64, 1#64] (some .malformed) .accepted).mem.valid (1#64 : Word).toInt ∧
      (imageHost [3#64, 1#64] (some .malformed) .accepted).channel.answers = [] ∧
      (imageHost [3#64, 1#64] (some .malformed) .accepted).channel.answersAfter = some .malformed) := by decide

theorem witness_UnansweredInputWaits :
    (imageHost [3#64, 1#64] none .accepted).CellIs ((imageHost [3#64, 1#64] none .accepted).ip.toNat + 1) 1#64 ∧
    (imageHost [3#64, 1#64] none .accepted).mem.valid (1#64 : Word).toInt ∧
    (imageHost [3#64, 1#64] none .accepted).channel.answers = [] ∧
    (imageHost [3#64, 1#64] none .accepted).channel.answersAfter = none := by decide

/-- Both modes, from the list and from the standing verdict. -/
theorem witness_OutputAppendsTheAcceptedValue :
    ({ image [104#64, 9#64] with channel := { IoChannel.default with verdicts := [.accepted] } } : State).OperandIs
      1 .immediate 9#64 ∧
    ({ image [104#64, 9#64] with channel := { IoChannel.default with verdicts := [.accepted] } } : State).channel.verdicts =
      .accepted :: [] ∧
    (image [4#64, 1#64]).OperandIs 1 .position 1#64 ∧ (image [4#64, 1#64]).channel.verdicts = [] ∧
    (image [4#64, 1#64]).channel.verdictsAfter = .accepted :=
  ⟨operandImmediate (by decide), rfl, operandPosition (p := 1#64) (by decide) (by decide), rfl, rfl⟩

/-- V-IO-13, a missing parameter cell, a rejection from the list and a standing rejection. -/
theorem witness_OutputFailures :
    (image [4#64, 2#64]).OperandFaults 1 .position (2#64 : Word).toInt ∧
    (image [4#64]).OperandFaults 1 .position ((image [4#64]).ip.toNat + 1) ∧
    (({ image [104#64, 9#64] with channel := { IoChannel.default with verdicts := [.rejected] } } : State).OperandIs
        1 .immediate 9#64 ∧
      ({ image [104#64, 9#64] with channel := { IoChannel.default with verdicts := [.rejected] } } : State).channel.verdicts =
        .rejected :: []) ∧
    ((imageHost [104#64, 9#64] none .rejected).OperandIs 1 .immediate 9#64 ∧
      (imageHost [104#64, 9#64] none .rejected).channel.verdicts = [] ∧
      (imageHost [104#64, 9#64] none .rejected).channel.verdictsAfter = .rejected) :=
  ⟨addressFaults (by decide) (by decide), paramFaults (by decide), ⟨operandImmediate (by decide), rfl⟩,
    operandImmediate (by decide), rfl, rfl⟩

/-- A next state of IN, with a destination and with one that cannot be read. -/
theorem witness_InputFrame : (imageIn [3#64, 1#64] [.value 42#64]).mem.wf = true ∧
    after (exec (.input fieldsIP) (imageIn [3#64, 1#64] [.value 42#64])) State.ip = some 2#64 ∧
    (imageIn [3#64, 1#64] [.value 42#64]).dst 1 = .ok 1 ∧ (image [3#64]).mem.wf = true ∧
    after (exec (.input fieldsIP) (image [3#64])) State.ip = some 0#64 ∧
    (image [3#64]).dst 1 = .error (addressError .read 1) := by decide

theorem witness_OutputFrame : ∃ t, exec (.output fieldsIP) (image [104#64, 9#64]) = .next t ∧ t.out = [9#64] :=
  after_some (f := State.out) (by decide)

/-- `JT #1, #0` and `JF #0, #0`: the lowest target; and the highest one an i64 can hold. -/
theorem witness_TakenJumpSetsIp :
    ((image [1105#64, 1#64, 0#64]).OperandIs 1 fieldsII.modes.s1 1#64 ∧
      (image [1105#64, 1#64, 0#64]).OperandIs 2 fieldsII.modes.s2 0#64 ∧ 0 ≤ (0#64 : Word).toInt ∧ (1#64 : Word) ≠ 0#64) ∧
    ((image [1106#64, 0#64, 9223372036854775807#64]).OperandIs 1 fieldsII.modes.s1 0#64 ∧
      (image [1106#64, 0#64, 9223372036854775807#64]).OperandIs 2 fieldsII.modes.s2 9223372036854775807#64 ∧
      0 ≤ (9223372036854775807#64 : Word).toInt) :=
  ⟨⟨operandImmediate (by decide), operandImmediate (by decide), by decide, by decide⟩,
    operandImmediate (by decide), operandImmediate (by decide), by decide⟩

/-- V-JMP-7: a negative target; and `JT #0, #0`. -/
theorem witness_UntakenJumpAdvances :
    ((image [1105#64, 0#64, 0#64]).OperandIs 1 fieldsII.modes.s1 0#64 ∧
      (image [1105#64, 0#64, 0#64]).OperandIs 2 fieldsII.modes.s2 0#64) ∧
    ((image [1106#64, 1#64, -3#64]).OperandIs 1 fieldsII.modes.s1 1#64 ∧
      (image [1106#64, 1#64, -3#64]).OperandIs 2 fieldsII.modes.s2 (-3#64) ∧ (1#64 : Word) ≠ 0#64) :=
  ⟨⟨operandImmediate (by decide), operandImmediate (by decide)⟩,
    operandImmediate (by decide), operandImmediate (by decide), by decide⟩

/-- A condition past the end, V-JMP-13, V-JMP-12, and the targets -1 of a taken JT and of a taken JF. -/
theorem witness_JumpFailures :
    (image [5#64, 3#64, 0#64]).OperandFaults 1 .position (3#64 : Word).toInt ∧
    ((image [105#64, 1#64, 9#64]).OperandIs 1 fieldsIP.modes.s1 1#64 ∧
      (image [105#64, 1#64, 9#64]).OperandFaults 2 fieldsIP.modes.s2 (9#64 : Word).toInt) ∧
    ((image [1105#64, 1#64]).OperandIs 1 fieldsII.modes.s1 1#64 ∧
      (image [1105#64, 1#64]).OperandFaults 2 fieldsII.modes.s2 ((image [1105#64, 1#64]).ip.toNat + (2 : Nat))) ∧
    ((image [1105#64, 1#64, -1#64]).OperandIs 1 fieldsII.modes.s1 1#64 ∧
      (image [1105#64, 1#64, -1#64]).OperandIs 2 fieldsII.modes.s2 (-1#64) ∧ (-1#64 : Word).toInt < 0 ∧
      (1#64 : Word) ≠ 0#64) ∧
    ((image [1106#64, 0#64, -1#64]).OperandIs 1 fieldsII.modes.s1 0#64 ∧
      (image [1106#64, 0#64, -1#64]).OperandIs 2 fieldsII.modes.s2 (-1#64)) :=
  ⟨addressFaults (by decide) (by decide), ⟨operandImmediate (by decide), addressFaults (by decide) (by decide)⟩,
    ⟨operandImmediate (by decide), paramFaults (by decide)⟩,
    ⟨operandImmediate (by decide), operandImmediate (by decide), by decide, by decide⟩,
    operandImmediate (by decide), operandImmediate (by decide)⟩

/-- V-JMP-9: the target is MEM_LEN; and the same for JF. -/
theorem witness_JumpPastTheEndFailsAtTheNextFetch :
    ((image [1105#64, 1#64, 3#64]).runState = .running ∧ (image [1105#64, 1#64, 3#64]).OperandIs 1 fieldsII.modes.s1 1#64 ∧
      (image [1105#64, 1#64, 3#64]).OperandIs 2 fieldsII.modes.s2 3#64 ∧ 0 ≤ (3#64 : Word).toInt ∧
      ((image [1105#64, 1#64, 3#64]).mem.len : Int) ≤ (3#64 : Word).toInt ∧ (1#64 : Word) ≠ 0#64) ∧
    ((image [1106#64, 0#64, 3#64]).runState = .running ∧ (image [1106#64, 0#64, 3#64]).OperandIs 1 fieldsII.modes.s1 0#64 ∧
      (image [1106#64, 0#64, 3#64]).OperandIs 2 fieldsII.modes.s2 3#64 ∧
      ((image [1106#64, 0#64, 3#64]).mem.len : Int) ≤ (3#64 : Word).toInt) :=
  ⟨⟨rfl, operandImmediate (by decide), operandImmediate (by decide), by decide, by decide, by decide⟩,
    rfl, operandImmediate (by decide), operandImmediate (by decide), by decide⟩

theorem witness_JumpFrame :
    ∀ i ∈ [Instr.jt fieldsII, Instr.jf fieldsII], after (exec i (image [1105#64, 1#64, 0#64])) State.mem =
      some (image [1105#64, 1#64, 0#64]).mem := by decide

theorem witness_StatusWordsOfNamedFailures :
    (image [99#64]).err = ErrRecord.none ∧ (image [99#64]).runState = .running ∧
    ({ image [99#64] with runState := .halted } : State).err = ErrRecord.none ∧
    ({ image [99#64] with runState := .halted } : State).runState = .halted := by decide

theorem witness_HostReadsOnlyEndedRuns :
    (image [99#64]).runState = .running ∧ ({ image [99#64] with runState := .halted } : State).runState ≠ .running ∧
    0 < ({ image [99#64] with runState := .halted } : State).mem.len ∧
    ((image [0#64]).raise (decodeRaise ⟨.badOpcode, 0, 0⟩)).runState = .failed := by decide

/-- One state for each of the two faults: an ended run, and an IN whose request the host has not answered. -/
theorem witness_TheCoreWaitsOnlyInsideIn :
    step { image [99#64] with runState := .halted } = .fault .runEnded ∧
    step (imageHost [3#64, 1#64] none .accepted) = .fault .inputUnanswered := ⟨rfl, rfl⟩

end Sys2Proof.Tests
end

/-! PROOFS. What is fixed for a whole run: MEM_LEN (10_state.md R18) and the parameters (00_scope.md R7). -/

namespace Sys2Proof.Machine

/-- t has the MEM_LEN and the parameters of s. -/
def SameLenAndParams (s t : State) : Prop := t.mem.len = s.mem.len ∧ t.params = s.params

/-- Failure entry keeps both. -/
theorem sameLenAndParams_raise (s : State) (r : Raise) : SameLenAndParams s (s.raise r) :=
  ⟨congrArg Memory.len (raise_mem s r), raise_params s r⟩

/-- The one write of ADD, MUL, LT and EQ is `Memory.set`, which does not touch MEM_LEN. -/
theorem writeResult_sameLenAndParams {s t : State} {f : Fields} {alu : Word → Word → Except Raise Word}
    (h : s.writeResult f alu = .next t) : SameLenAndParams s t := by
  rcases writeResult_cases h with ⟨_, _, d, r, -, -, -, -, -, rfl⟩ | ⟨_, -, rfl⟩ | ⟨_, _, -, -, rfl⟩ |
    ⟨_, _, -, -, -, rfl⟩ | ⟨_, _, _, _, -, -, -, -, rfl⟩ | ⟨_, _, _, _, -, -, -, -, -, rfl⟩
  case inl => exact ⟨set_len s.mem d.toInt.toNat r, rfl⟩
  all_goals exact sameLenAndParams_raise s _

/-- A conditional jump moves ip alone, or fails. -/
theorem jumpWhen_sameLenAndParams {s t : State} {f : Fields} {taken : Word → Bool}
    (h : s.jumpWhen f taken = .next t) : SameLenAndParams s t := by
  rcases jumpWhen_cases h with
    ⟨_, _, -, -, ⟨-, -, rfl⟩ | ⟨-, -, rfl⟩ | ⟨-, rfl⟩⟩ | ⟨_, -, rfl⟩ | ⟨_, _, -, -, rfl⟩
  · exact ⟨rfl, rfl⟩
  · exact sameLenAndParams_raise s _
  · exact ⟨rfl, rfl⟩
  · exact sameLenAndParams_raise s _
  · exact sameLenAndParams_raise s _

/-- IN stores by `Memory.set`; its request changes the channel alone. -/
theorem execIn_sameLenAndParams {s t : State} {f : Fields} (h : execIn f s = .next t) : SameLenAndParams s t := by
  rcases execIn_cases h with ⟨r, -, ho⟩ | ⟨_, -, -, ho⟩ | ⟨d, v, _, -, -, ho⟩ | ⟨_, c, -, -, ho⟩ | ⟨_, c, -, -, ho⟩
  · cases ho; exact sameLenAndParams_raise s r
  · cases ho
  · cases ho; exact ⟨set_len s.mem d.toNat v, rfl⟩
  · cases ho; exact sameLenAndParams_raise { s with channel := c } _
  · cases ho; exact sameLenAndParams_raise { s with channel := c } _

/-- OUT changes the output, ip and the channel, or fails. -/
theorem execOut_sameLenAndParams {s t : State} {f : Fields} (h : execOut f s = .next t) : SameLenAndParams s t := by
  rcases execOut_cases h with ⟨_, -, ho⟩ | ⟨_, _, -, -, ho⟩ | ⟨_, c, -, -, ho⟩
  · cases ho; exact sameLenAndParams_raise s _
  · cases ho; exact ⟨rfl, rfl⟩
  · cases ho; exact sameLenAndParams_raise { s with channel := c } _

/-- No instruction changes MEM_LEN or the parameters (10_state.md R18). -/
theorem exec_sameLenAndParams {i : Instr} {s t : State} (h : exec i s = .next t) : SameLenAndParams s t := by
  cases i with
  | add f => exact writeResult_sameLenAndParams h
  | mul f => exact writeResult_sameLenAndParams h
  | lt f => exact writeResult_sameLenAndParams h
  | eq f => exact writeResult_sameLenAndParams h
  | input f => exact execIn_sameLenAndParams (f := f) h
  | output f => exact execOut_sameLenAndParams h
  | jt f => exact jumpWhen_sameLenAndParams h
  | jf f => exact jumpWhen_sameLenAndParams h
  | halt f => cases h; exact ⟨rfl, rfl⟩

/-- No step changes them: it runs an instruction, or fails at the fetch or the decoder. -/
theorem step_sameLenAndParams {s t : State} (h : step s = .next t) : SameLenAndParams s t := by
  rcases step_cases h with ⟨-, ho⟩ | ⟨-, r, -, ho⟩ | ⟨-, i, -, ho⟩
  · cases ho
  · cases ho; exact sameLenAndParams_raise s r
  · exact exec_sameLenAndParams ho.symm

/-- A write at or beyond MEM_LEN does not extend memory: the address is not valid (10_state.md R18). -/
theorem memWrite_beyond {s : State} {a : Int} (v : Word) (h : (s.mem.len : Int) ≤ a) :
    s.memWrite a v = .error (addressError .write a) :=
  memWrite_error.mpr ⟨fun hv => absurd hv.2 (not_lt.mpr h), rfl⟩

/-- Settles O27: each handler keeps MEM_LEN and the parameters, so the dispatch and the step keep them. -/
theorem memLenIsFixed : Obligations.MemLenIsFixed :=
  ⟨fun _ _ _ => exec_sameLenAndParams, fun _ _ => step_sameLenAndParams, fun _ _ v => memWrite_beyond v⟩

end Sys2Proof.Machine

/-! PROOFS. MemRead and MemWrite at every address (20_memory.md R40, R41). -/

namespace Sys2Proof.Machine

/-- Read after write: the written cell holds the value. -/
theorem memRead_of_memWrite_self {s t : State} {a : Int} {v : Word} (hwf : s.mem.wf = true)
    (h : s.memWrite a v = .ok t) : t.memRead a = .ok v := by
  obtain ⟨ha, rfl⟩ := memWrite_ok.mp h
  exact memRead_ok.mpr ⟨ha, (get_set hwf).trans (if_pos rfl)⟩

/-- The frame of a write: every other address reads as before. Only a valid one needs the canonical form; a negative
one, which `toNat` would confuse with 0, is invalid before and after. -/
theorem memRead_of_memWrite_ne {s t : State} {a b : Int} {v : Word} (hwf : s.mem.wf = true)
    (h : s.memWrite a v = .ok t) (hb : b ≠ a) : t.memRead b = s.memRead b := by
  obtain ⟨⟨ha0, -⟩, ht⟩ := memWrite_ok.mp h
  have hmem : t.mem = s.mem.set a.toNat v := congrArg State.mem ht
  have hvalid : t.mem.valid b ↔ s.mem.valid b := by rw [hmem, Memory.valid, set_len]
  by_cases hv : s.mem.valid b
  · have hne : b.toNat ≠ a.toNat := by
      obtain ⟨hb0, -⟩ := hv
      omega
    rw [memRead_valid (hvalid.mpr hv), memRead_valid hv, hmem, get_set hwf, if_neg hne]
  · rw [memRead_invalid (mt hvalid.mp hv), memRead_invalid hv]

/-- A valid address lies below MEM_LEN as a natural number too, so a write there keeps the canonical form. -/
theorem set_wf_of_valid {m : Memory} {a : Int} {v : Word} (hwf : m.wf = true) (ha : m.valid a) :
    (m.set a.toNat v).wf = true :=
  set_wf hwf ((Int.toNat_lt ha.1).mpr ha.2)

/-- Settles O33: the state after a write at a valid address is `s` with that one cell set, and the facts about
`Memory.set` give the rest; at any other address the bounds check raises. -/
theorem memWriteChangesOneCell : Obligations.MemWriteChangesOneCell := by
  intro s a v hwf
  constructor
  · intro ha
    have hw := (memWrite_ok (v := v)).mpr ⟨ha, rfl⟩
    exact ⟨_, hw, memRead_of_memWrite_self hwf hw, fun _ hb => memRead_of_memWrite_ne hwf hw hb,
      set_len s.mem a.toNat v, set_wf_of_valid hwf ha, rfl⟩
  · intro ha
    exact memWrite_error.mpr ⟨ha, rfl⟩

/-- Settles O32: the two branches of the bounds check. -/
theorem memReadChecksBounds : Obligations.MemReadChecksBounds :=
  fun _ _ => ⟨memRead_valid, memRead_invalid⟩

end Sys2Proof.Machine

/-! PROOFS. The mode digits of a decoded word (30_encoding.md R58). -/

namespace Sys2Proof

/-- Settles O2: the decoder hands on the word's own mode digits, and those are digits 2, 3 and 4 in plain division. -/
theorem decodedDigitsAreTheWordsDigits : Obligations.DecodedDigitsAreTheWordsDigits := by
  intro p w i _ h
  obtain ⟨-, -, hdigits, -⟩ := decode_ok.mp h
  exact hdigits.trans (modeDigits_eq w.toNat)

end Sys2Proof

/-! PROOFS. The ip update of a step that does not fail (40_dispatch.md R87). -/

namespace Sys2Proof.Machine

/-- ADD, MUL, LT and EQ fall through by four cells: of the ways they can end, only the write is no failure. -/
theorem writeResult_ip {s t : State} {f : Fields} {alu : Word → Word → Except Raise Word}
    (h : s.writeResult f alu = .next t) (hn : t.runState ≠ .failed) : t.ip = s.ip + 4#64 := by
  rcases writeResult_cases h with ⟨_, _, _, _, -, -, -, -, -, rfl⟩ | ⟨_, -, rfl⟩ | ⟨_, _, -, -, rfl⟩ |
    ⟨_, _, -, -, -, rfl⟩ | ⟨_, _, _, _, -, -, -, -, rfl⟩ | ⟨_, _, _, _, -, -, -, -, -, rfl⟩
  case inl => rfl
  all_goals exact absurd (raise_runState s _) hn

/-- A conditional jump that does not fail has resolved both operands, and goes to the target or falls through by
three cells. -/
theorem jumpWhen_ip {s t : State} {f : Fields} {taken : Word → Bool}
    (h : s.jumpWhen f taken = .next t) (hn : t.runState ≠ .failed) :
    ∃ c g, s.OperandIs 1 f.modes.s1 c ∧ s.OperandIs 2 f.modes.s2 g ∧
      t.ip = if taken c then g else s.ip + 3#64 := by
  rcases jumpWhen_cases h with
    ⟨c, g, hc, hg, ⟨ht, -, rfl⟩ | ⟨-, -, rfl⟩ | ⟨ht, rfl⟩⟩ | ⟨_, -, rfl⟩ | ⟨_, _, -, -, rfl⟩
  · exact ⟨c, g, hc, hg, (if_pos ht).symm⟩
  · exact absurd (raise_runState s _) hn
  · exact ⟨c, g, hc, hg, (if_neg (ne_true_of_eq_false ht)).symm⟩
  · exact absurd (raise_runState s _) hn
  · exact absurd (raise_runState s _) hn

/-- IN falls through by two cells once it has stored the host's value; its other answers are failures. -/
theorem execIn_ip {s t : State} {f : Fields} (h : execIn f s = .next t) (hn : t.runState ≠ .failed) :
    t.ip = s.ip + 2#64 := by
  rcases execIn_cases h with ⟨r, -, ho⟩ | ⟨_, -, -, ho⟩ | ⟨_, _, _, -, -, ho⟩ | ⟨_, c, -, -, ho⟩ | ⟨_, c, -, -, ho⟩
  · cases ho; exact absurd (raise_runState s r) hn
  · cases ho
  · cases ho; rfl
  · cases ho; exact absurd (raise_runState { s with channel := c } _) hn
  · cases ho; exact absurd (raise_runState { s with channel := c } _) hn

/-- OUT falls through by two cells once its value is accepted. -/
theorem execOut_ip {s t : State} {f : Fields} (h : execOut f s = .next t) (hn : t.runState ≠ .failed) :
    t.ip = s.ip + 2#64 := by
  rcases execOut_cases h with ⟨_, -, ho⟩ | ⟨_, _, -, -, ho⟩ | ⟨_, c, -, -, ho⟩
  · cases ho; exact absurd (raise_runState s _) hn
  · cases ho; rfl
  · cases ho; exact absurd (raise_runState { s with channel := c } _) hn

/-- Settles O26: the step runs the decoded instruction, and each handler that does not fail moves ip by its own
rule. -/
theorem ipUpdateOfEachInstruction : Obligations.IpUpdateOfEachInstruction := by
  intro s t i hr hl hd h hn
  have hexec : exec i s = .next t := (step_ok hr (fetchInstr_ok.mpr ⟨hl, hd⟩)).symm.trans h
  cases i with
  | add f => exact writeResult_ip hexec hn
  | mul f => exact writeResult_ip hexec hn
  | lt f => exact writeResult_ip hexec hn
  | eq f => exact writeResult_ip hexec hn
  | input f => exact execIn_ip (f := f) hexec hn
  | output f => exact execOut_ip hexec hn
  | jt f => simpa only [bne_iff_ne] using jumpWhen_ip hexec hn
  | jf f => simpa only [beq_iff_eq] using jumpWhen_ip hexec hn
  | halt f => cases hexec; rfl

end Sys2Proof.Machine

/-! PROOFS. The results of the comparisons LT and EQ (44_compare.md R108 to R110). -/

namespace Sys2Proof.Machine

/-- An ALU that cannot raise lets the instruction complete whatever its operands are: the destination alone is left
to be valid. -/
theorem writeResult_completes_of_total {s : State} {f : Fields} {op : Word → Word → Word} {a b d : Word}
    (ha : s.OperandIs 1 f.modes.s1 a) (hb : s.OperandIs 2 f.modes.s2 b) (hd : s.CellIs (s.ip.toNat + 3) d)
    (hv : s.mem.valid d.toInt) :
    s.writeResult f (fun x y => .ok (op x y)) =
      .next { s with mem := s.mem.set d.toInt.toNat (op a b), ip := s.ip + 4#64 } :=
  writeResult_completes ha hb hd rfl hv

/-- Settles O37: LT and EQ hand `writeResult` an ALU that cannot raise, whose result is the signed order or equality
of the operands as the word 1 or 0. -/
theorem comparisonStoresOneOrZero : Obligations.ComparisonStoresOneOrZero := by
  intro s f a b d ha hb hd hv
  constructor
  · rw [exec_lt]
    exact writeResult_completes_of_total (op := aluLt) ha hb hd hv
  · rw [exec_eq]
    exact writeResult_completes_of_total (op := aluEq) ha hb hd hv

end Sys2Proof.Machine

/-! PROOFS. HALT, and that no other instruction makes a run Halted (45_halt.md R111, R112). -/

namespace Sys2Proof.Machine

/-- Settles O53: the handler of HALT sets the run state and nothing else. -/
theorem haltStopsTheRun : Obligations.HaltStopsTheRun := fun s f => exec_halt f s

/-- t runs as s does, or has failed: what every instruction but HALT does to the run state. -/
def RunStateKeptOrFailed (s t : State) : Prop := t.runState = s.runState ∨ t.runState = .failed

/-- ADD, MUL, LT and EQ complete with the run state as it was, or raise. -/
theorem writeResult_runState {s t : State} {f : Fields} {alu : Word → Word → Except Raise Word}
    (h : s.writeResult f alu = .next t) : RunStateKeptOrFailed s t := by
  rcases writeResult_cases h with ⟨_, _, _, _, -, -, -, -, -, rfl⟩ | ⟨_, -, rfl⟩ | ⟨_, _, -, -, rfl⟩ |
    ⟨_, _, -, -, -, rfl⟩ | ⟨_, _, _, _, -, -, -, -, rfl⟩ | ⟨_, _, _, _, -, -, -, -, -, rfl⟩
  case inl => exact .inl rfl
  all_goals exact .inr (raise_runState s _)

/-- A jump, taken or not, keeps the run state; a bad operand or target raises. -/
theorem jumpWhen_runState {s t : State} {f : Fields} {taken : Word → Bool}
    (h : s.jumpWhen f taken = .next t) : RunStateKeptOrFailed s t := by
  rcases jumpWhen_cases h with
    ⟨_, _, -, -, ⟨-, -, rfl⟩ | ⟨-, -, rfl⟩ | ⟨-, rfl⟩⟩ | ⟨_, -, rfl⟩ | ⟨_, _, -, -, rfl⟩
  · exact .inl rfl
  · exact .inr (raise_runState s _)
  · exact .inl rfl
  · exact .inr (raise_runState s _)
  · exact .inr (raise_runState s _)

/-- IN keeps the run state when it stores the host's value, and fails on a bad destination and on the other
answers. -/
theorem execIn_runState {s t : State} {f : Fields} (h : execIn f s = .next t) : RunStateKeptOrFailed s t := by
  rcases execIn_cases h with ⟨r, -, ho⟩ | ⟨_, -, -, ho⟩ | ⟨_, _, _, -, -, ho⟩ | ⟨_, c, -, -, ho⟩ | ⟨_, c, -, -, ho⟩
  · cases ho; exact .inr (raise_runState s r)
  · cases ho
  · cases ho; exact .inl rfl
  · cases ho; exact .inr (raise_runState { s with channel := c } _)
  · cases ho; exact .inr (raise_runState { s with channel := c } _)

/-- OUT keeps the run state when its value is accepted, and fails on a bad operand and on a rejection. -/
theorem execOut_runState {s t : State} {f : Fields} (h : execOut f s = .next t) : RunStateKeptOrFailed s t := by
  rcases execOut_cases h with ⟨_, -, ho⟩ | ⟨_, _, -, -, ho⟩ | ⟨_, c, -, -, ho⟩
  · cases ho; exact .inr (raise_runState s _)
  · cases ho; exact .inl rfl
  · cases ho; exact .inr (raise_runState { s with channel := c } _)

/-- An instruction is HALT, or it leaves the run state as it was or fails. -/
theorem exec_isHalt_or_runState {i : Instr} {s t : State} (h : exec i s = .next t) :
    (∃ f, i = .halt f) ∨ RunStateKeptOrFailed s t := by
  cases i with
  | add f => exact .inr (writeResult_runState h)
  | mul f => exact .inr (writeResult_runState h)
  | lt f => exact .inr (writeResult_runState h)
  | eq f => exact .inr (writeResult_runState h)
  | input f => exact .inr (execIn_runState (f := f) h)
  | output f => exact .inr (execOut_runState h)
  | jt f => exact .inr (jumpWhen_runState h)
  | jf f => exact .inr (jumpWhen_runState h)
  | halt f => exact .inl ⟨f, rfl⟩

/-- In a Running run, an instruction that ends Halted is HALT. -/
theorem isHalt_of_exec_halted {i : Instr} {s t : State} (hr : s.runState = .running) (h : exec i s = .next t)
    (ht : t.runState = .halted) : ∃ f, i = .halt f := by
  rcases exec_isHalt_or_runState h with hi | hkept | hfailed
  · exact hi
  · exact absurd (ht.symm.trans (hkept.trans hr)) (by decide)
  · exact absurd (ht.symm.trans hfailed) (by decide)

/-- Settles O23: an ended run takes no step and a raise at the fetch or the decoder ends Failed, so a step that ends
Halted ran an instruction, and that one is HALT. -/
theorem onlyHaltSucceeds : Obligations.OnlyHaltSucceeds := by
  intro s t h ht
  rcases step_cases h with ⟨-, ho⟩ | ⟨-, r, -, ho⟩ | ⟨hr, i, hf, ho⟩
  · cases ho
  · cases ho
    exact absurd ((raise_runState s r).symm.trans ht) (by decide)
  · obtain ⟨f, rfl⟩ := isHalt_of_exec_halted hr ho.symm ht
    obtain ⟨hl, hd⟩ := fetchInstr_ok.mp hf
    have hs : t = { s with runState := .halted } := by
      rw [haltStopsTheRun s f] at ho
      exact Host.Outcome.next.inj ho
    exact ⟨hr, hl, ⟨f, hd⟩, hs⟩

end Sys2Proof.Machine

/-! PROOFS. The start of a run (70_reset_and_hazards.md R131). -/

namespace Sys2Proof.Machine

/-- An image of at most 2^63 cells starts a run (93_implementation_defined.md I14, the branch that does not refuse). -/
theorem start_of_length_le (p : Params) (h : IoChannel) {c : List Word} (hc : c.length ≤ maxMemLen) :
    State.start p h c = .next
      { mem := Memory.ofImage c, ip := 0#64, runState := .running, err := ErrRecord.none, out := [], params := p,
        channel := h } :=
  if_pos hc

/-- Settles O12: the memory of the started run is the loaded image, whose length and cells are those of the image, and
the other values are the literals of the start. -/
theorem startLoadsTheImage : Obligations.StartLoadsTheImage := by
  intro p h image hlen
  exact ⟨_, start_of_length_le p h hlen, ofImage_len image, get_ofImage image, rfl, rfl, rfl⟩

end Sys2Proof.Machine

/-! PROOFS. Which instructions the decoder yields and for which words (30_encoding.md R59 to R66): well-formedness as
one equation, and the decoder's checks one lemma each. -/

namespace Sys2Proof

/-- Well-formedness in the decoder's own terms: decimal digits, and modes that are the effective modes of the digits. -/
theorem wellFormed_iff {p : Params} {i : Instr} :
    WellFormed p i = true ↔ digitsInRange i.fields.digits = true ∧
      effectiveModes p i.opcode.classes i.fields.digits = .ok i.fields.modes := by
  simp only [WellFormed, modesAgree, effectiveModes_ok, Bool.and_eq_true, decide_eq_true_eq, and_assoc]

/-- An encoded word is a small number, so as a signed word it is not negative. -/
theorem encode_nonneg {i : Instr} (h : digitsInRange i.fields.digits = true) : 0 ≤ (encode i).toInt := by
  have hlt := wordNumber_lt (op := i.opcode) h
  rw [toInt_nonneg_iff, encode_toNat h]
  omega

/-- Settles O1: the encoded word is not negative, holds the opcode's number and the instruction's own digits, and has
no high digits; these are the decoder's conditions for the instruction (`decode_ok`). -/
theorem decodeInvertsEncode : Obligations.DecodeInvertsEncode := by
  intro p i hwf
  obtain ⟨hdigits, hmodes⟩ := wellFormed_iff.mp hwf
  have hlt := wordNumber_lt (op := i.opcode) hdigits
  have hhigh : wordNumber i.opcode i.fields.digits / 100000 = 0 := Nat.div_eq_of_lt hlt
  refine decode_ok.mpr ⟨encode_nonneg hdigits, ?_⟩
  rw [encode_toNat hdigits, wordNumber_digits hdigits]
  exact ⟨wordNumber_opcode _ _, rfl, hmodes, fun h => h.2 hhigh⟩

/-- An effective mode fits the slot's class and digit. -/
theorem modeFits_of_effectiveMode {p : Params} {c : SlotClass} {d : Nat} {m : Mode}
    (h : effectiveMode p c d = some m) : Machine.ModeFits c d m := by
  constructor
  · rintro rfl
    exact (Option.some.inj h).symm
  · rintro rfl
    match d with
    | 0 => exact .inl ⟨rfl, (Option.some.inj h).symm⟩
    | 1 => exact .inr ⟨rfl, (Option.some.inj h).symm⟩
    | _ + 2 => cases h

/-- Settles O3: the decoder hands on a word's digits and their effective modes. -/
theorem decodedModesFollowClassAndDigit : Obligations.DecodedModesFollowClassAndDigit := by
  intro p w i h
  obtain ⟨-, -, hdigits, hmodes, -⟩ := decode_ok.mp h
  rw [← hdigits] at hmodes
  obtain ⟨h1, h2, h3⟩ := effectiveModes_ok.mp hmodes
  exact ⟨wellFormed_iff.mpr ⟨hdigits ▸ digitsInRange_modeDigits w.toNat, hmodes⟩,
    modeFits_of_effectiveMode h1, modeFits_of_effectiveMode h2, modeFits_of_effectiveMode h3⟩

/-! The checks in their order: sign, opcode, slots, high digits. -/

theorem decode_of_neg {p : Params} {w : Word} (h : w.toInt < 0) :
    decode p w = .error ⟨.negativeWord, 0, w.toInt⟩ := if_pos h

theorem decode_of_unknownOpcode {p : Params} {w : Word} (h : 0 ≤ w.toInt)
    (ho : opcodeOfNumber (w.toNat % 100) = none) : decode p w = .error ⟨.badOpcode, 0, w.toInt⟩ := by
  rw [decode, if_neg (not_lt.mpr h), ho]

theorem decode_of_badSlot {p : Params} {w : Word} {op : Opcode} {k : Fin 4} (h : 0 ≤ w.toInt)
    (ho : w.toNat % 100 = op.number) (hm : effectiveModes p op.classes (modeDigits w.toNat) = .error k) :
    decode p w = .error ⟨.badMode, k, w.toInt⟩ := by
  rw [decode, if_neg (not_lt.mpr h), opcodeOfNumber_some.mpr ho]
  simp only [hm]

theorem decode_of_highDigits {p : Params} {w : Word} {op : Opcode} {m : Slots Mode} (h : 0 ≤ w.toInt)
    (ho : w.toNat % 100 = op.number) (hm : effectiveModes p op.classes (modeDigits w.toNat) = .ok m)
    (hp : p.highDigits = .fault) (hh : 100000 ≤ w.toNat) : decode p w = .error ⟨.highDigits, 0, w.toInt⟩ := by
  have hd : w.toNat / 100000 ≠ 0 := by omega
  rw [decode, if_neg (not_lt.mpr h), opcodeOfNumber_some.mpr ho]
  simp only [hm]
  exact if_pos ⟨hp, hd⟩

/-- A slot of the class c whose digit d is illegal (30_encoding.md R60). -/
def BadSlot (p : Params) (c : SlotClass) (d : Nat) : Prop := Machine.Checked p c ∧ 1 < d

/-- Such a slot is one without an effective mode. -/
theorem effectiveMode_eq_none_iff {p : Params} {c : SlotClass} {d : Nat} :
    effectiveMode p c d = none ↔ BadSlot p c d := effectiveMode_none

/-- The slots have effective modes exactly when none of them is bad. -/
theorem exists_effectiveModes_iff {p : Params} {c : Slots SlotClass} {d : Slots Nat} :
    (∃ m, effectiveModes p c d = .ok m) ↔ ¬ BadSlot p c.s1 d.s1 ∧ ¬ BadSlot p c.s2 d.s2 ∧ ¬ BadSlot p c.s3 d.s3 := by
  simp only [← effectiveMode_eq_none_iff, Option.ne_none_iff_exists', effectiveModes_ok]
  constructor
  · rintro ⟨m, h1, h2, h3⟩
    exact ⟨⟨_, h1⟩, ⟨_, h2⟩, ⟨_, h3⟩⟩
  · rintro ⟨⟨m1, h1⟩, ⟨m2, h2⟩, ⟨m3, h3⟩⟩
    exact ⟨⟨m1, m2, m3⟩, h1, h2, h3⟩

/-- A word decodes exactly when it is not negative, its opcode is known, none of its slots is bad, and it has no high
digits where they are a fault (30_encoding.md section 6). -/
theorem exists_decode_ok_iff {p : Params} {w : Word} :
    (∃ i, decode p w = .ok i) ↔ 0 ≤ w.toInt ∧ ∃ op : Opcode, w.toNat % 100 = op.number ∧
      (¬ BadSlot p op.classes.s1 (w.toNat / 100 % 10) ∧ ¬ BadSlot p op.classes.s2 (w.toNat / 1000 % 10) ∧
        ¬ BadSlot p op.classes.s3 (w.toNat / 10000 % 10)) ∧ ¬ (p.highDigits = .fault ∧ 100000 ≤ w.toNat) := by
  have hhigh : w.toNat / 100000 ≠ 0 ↔ 100000 ≤ w.toNat := by omega
  constructor
  · rintro ⟨i, h⟩
    obtain ⟨hnn, hop, -, hm, hh⟩ := decode_ok.mp h
    exact ⟨hnn, i.opcode, hop, exists_effectiveModes_iff.mp ⟨_, hm⟩, by rwa [hhigh] at hh⟩
  · rintro ⟨hnn, op, hop, hslots, hh⟩
    obtain ⟨m, hm⟩ := exists_effectiveModes_iff (d := modeDigits w.toNat) |>.mpr hslots
    exact ⟨op.instr ⟨modeDigits w.toNat, m⟩,
      decode_ok.mpr ⟨hnn, by simpa using hop, by simp, by simpa using hm, by rwa [hhigh]⟩⟩

/-- The decoder is total: an error is the absence of an instruction. -/
theorem exists_decode_error_iff {p : Params} {w : Word} :
    (∃ e, decode p w = .error e) ↔ ¬ ∃ i, decode p w = .ok i := by
  cases decode p w <;> simp

/-- The numbers that the opcode map names (30_encoding.md R56). -/
theorem exists_opcode_iff {n : Nat} : (∃ op : Opcode, n = op.number) ↔ n ∈ [1, 2, 3, 4, 5, 6, 7, 8, 99] := by
  rw [← not_iff_not, ← opcodeOfNumber_none, Option.eq_none_iff_forall_ne_some]
  simp only [ne_eq, opcodeOfNumber_some, not_exists]

/-- An opcode is determined by its number. -/
theorem opcode_number_inj {op op' : Opcode} (h : op.number = op'.number) : op = op' :=
  Option.some.inj ((opcodeOfNumber_some.mpr rfl).symm.trans (opcodeOfNumber_some.mpr h))

/-- Settles O4: the words that `exists_decode_ok_iff` leaves out, told apart by the opcode that the map gives. -/
theorem illegalWordsAreExactlyThese : Obligations.IllegalWordsAreExactlyThese := by
  intro p w
  rw [exists_decode_error_iff, exists_decode_ok_iff, ← exists_opcode_iff]
  constructor
  · intro h
    by_contra hlegal
    simp only [not_or, not_lt, not_not] at hlegal
    obtain ⟨hnn, ⟨op, hop⟩, hslots, hhigh⟩ := hlegal
    have hnone := fun hbad => hslots ⟨op, hop.symm, hbad⟩
    exact h ⟨hnn, op, hop, not_or.mp hnone |>.imp_right not_or.mp, hhigh⟩
  · rintro hbad ⟨hnn, op, hop, ⟨h1, h2, h3⟩, hhigh⟩
    rcases hbad with hneg | hunknown | ⟨op', hop', hslot⟩ | hh
    · exact absurd hneg (not_lt.mpr hnn)
    · exact hunknown ⟨op, hop⟩
    · obtain rfl : op' = op := opcode_number_inj (hop'.trans hop)
      rcases hslot with hs | hs | hs
      · exact h1 hs
      · exact h2 hs
      · exact h3 hs
    · exact hhigh hh

/-- Settles O5: one lemma for each check; the first bad slot is the one `effectiveModes` names. -/
theorem firstDecodeCheckNamesTheError : Obligations.FirstDecodeCheckNamesTheError := by
  intro p w
  refine ⟨decode_of_neg, fun hnn hop => decode_of_unknownOpcode hnn (opcodeOfNumber_none.mpr hop), ?_⟩
  intro op hnn hop
  refine ⟨fun h1 => ?_, fun h1 h2 => ?_, fun h1 h2 h3 => ?_, fun h1 h2 h3 hp hh => ?_⟩
  · exact decode_of_badSlot hnn hop (effectiveModes_error.mpr (.inl ⟨rfl, effectiveMode_none.mpr h1⟩))
  · exact decode_of_badSlot hnn hop
      (effectiveModes_error.mpr (.inr (.inl ⟨rfl, mt effectiveMode_none.mp h1, effectiveMode_none.mpr h2⟩)))
  · exact decode_of_badSlot hnn hop (effectiveModes_error.mpr (.inr (.inr
      ⟨rfl, mt effectiveMode_none.mp h1, mt effectiveMode_none.mp h2, effectiveMode_none.mpr h3⟩)))
  · obtain ⟨m, hm⟩ := exists_effectiveModes_iff (d := modeDigits w.toNat) |>.mpr ⟨h1, h2, h3⟩
    exact decode_of_highDigits hnn hop hm hp hh

/-! Digits without effect. -/

/-- Settles O7: what the decoder reads of a word is its number modulo 100000, but for the sign and the high digits. -/
theorem highDigitsHaveNoEffectWhenIgnored : Obligations.HighDigitsHaveNoEffectWhenIgnored := by
  intro p w w' i hp hnn' heq h
  obtain ⟨-, hop, hdigits, hmodes, -⟩ := decode_ok.mp h
  have hlow : w'.toNat % 100 = w.toNat % 100 := by omega
  have hmd : modeDigits w'.toNat = modeDigits w.toNat := by
    simp only [modeDigits_eq, Slots.mk.injEq]
    omega
  refine decode_ok.mpr ⟨hnn', hlow.trans hop, hmd ▸ hdigits, hmd ▸ hmodes, fun hf => ?_⟩
  exact absurd (hp.symm.trans hf.1) (by decide)

/-- A handler reads the modes of an instruction and never its digits (30_encoding.md R62). -/
theorem exec_with_digits (i : Instr) (d : Slots Nat) (s : Machine.State) :
    Machine.exec (i.opcode.instr ⟨d, i.fields.modes⟩) s = Machine.exec i s := by
  cases i <;> rfl

/-- A word that decodes to i still does so, but for the digits, when another word agrees with it in opcode and high
digits and its digits have the effective modes of i. -/
theorem decode_of_same_modes {p : Params} {w w' : Word} {i : Instr} (h : decode p w = .ok i) (hnn : 0 ≤ w'.toInt)
    (hop : w.toNat % 100 = w'.toNat % 100) (hhigh : w.toNat / 100000 = w'.toNat / 100000)
    (hm : effectiveModes p i.opcode.classes (modeDigits w'.toNat) = .ok i.fields.modes) :
    decode p w' = .ok (i.opcode.instr ⟨modeDigits w'.toNat, i.fields.modes⟩) := by
  obtain ⟨-, hnum, -, -, hh⟩ := decode_ok.mp h
  rw [decode_ok, instr_opcode, instr_fields, ← hop, ← hhigh]
  exact ⟨hnn, hnum, rfl, hm, hh⟩

/-- A forced slot is Immediate and its digit is not looked at (30_encoding.md R61). -/
@[simp] theorem effectiveMode_forced (p : Params) (d : Nat) : effectiveMode p .forced d = some .immediate := rfl

theorem effectiveMode_congr {p : Params} {c : SlotClass} {d d' : Nat} (h : c = .forced ∨ d = d') :
    effectiveMode p c d = effectiveMode p c d' := by
  rcases h with rfl | rfl <;> rfl

/-- Two words whose digits differ in forced slots alone have the same effective modes. -/
theorem effectiveModes_congr {p : Params} {c : Slots SlotClass} {d d' : Slots Nat}
    (h1 : c.s1 = .forced ∨ d.s1 = d'.s1) (h2 : c.s2 = .forced ∨ d.s2 = d'.s2) (h3 : c.s3 = .forced ∨ d.s3 = d'.s3) :
    effectiveModes p c d = effectiveModes p c d' := by
  unfold effectiveModes
  rw [effectiveMode_congr h1, effectiveMode_congr h2, effectiveMode_congr h3]

/-- Settles O6: where the words differ, the slot is forced, so the effective modes are the same, and no handler reads
a digit. -/
theorem forcedSlotDigitIsIgnored : Obligations.ForcedSlotDigitIsIgnored := by
  intro p w w' i h hnn hcases
  obtain ⟨-, -, -, hmodes, -⟩ := decode_ok.mp h
  obtain ⟨hm1, -, hm3⟩ := effectiveModes_ok.mp hmodes
  have slot1Forced : i.opcode = .input → i.opcode.classes.s1 = .forced := fun e => by rw [e]; rfl
  have slot3Forced : i.opcode ≠ .input → i.opcode.classes.s3 = .forced := by
    rcases hcases with ⟨e | e | e | e, -⟩ | ⟨e, -⟩
    case inr => exact fun hne => absurd e hne
    all_goals rw [e]; exact fun _ => rfl
  have agree : w.toNat % 100 = w'.toNat % 100 ∧ w.toNat / 100000 = w'.toNat / 100000 ∧
      effectiveModes p i.opcode.classes (modeDigits w.toNat) =
        effectiveModes p i.opcode.classes (modeDigits w'.toNat) := by
    simp only [modeDigits_eq]
    rcases hcases with ⟨hop, hlow, hhigh⟩ | ⟨hop, hlow, hdiv⟩
    · have hne : i.opcode ≠ .input := by rcases hop with e | e | e | e <;> rw [e] <;> decide
      exact ⟨by omega, hhigh, effectiveModes_congr (.inr (by simp only; omega)) (.inr (by simp only; omega))
        (.inl (slot3Forced hne))⟩
    · have hdiv4 : w.toNat / 10000 = w'.toNat / 10000 := by
        rw [← Nat.div_div_eq_div_mul _ 1000 10, hdiv, Nat.div_div_eq_div_mul]
      exact ⟨hlow, by omega, effectiveModes_congr (.inl (slot1Forced hop)) (.inr (congrArg (· % 10) hdiv))
        (.inr (congrArg (· % 10) hdiv4))⟩
  obtain ⟨hop, hhigh, hsame⟩ := agree
  refine ⟨_, decode_of_same_modes h hnn hop hhigh (hsame ▸ hmodes), instr_opcode _ _, ?_, ?_, ?_, exec_with_digits i _⟩
  · rw [instr_fields]
  · rw [instr_fields]
    exact fun e => (modeFits_of_effectiveMode hm1).1 (slot1Forced e)
  · rw [instr_fields]
    exact fun e => (modeFits_of_effectiveMode hm3).1 (slot3Forced e)

/-- Settles O8: the number of a decoded word is its opcode's, and each opcode has its length. -/
theorem lengthFollowsFromTheOpcodeNumber : Obligations.LengthFollowsFromTheOpcodeNumber := by
  intro p w i h
  obtain ⟨-, hop, -⟩ := decode_ok.mp h
  rw [hop]
  cases i.opcode <;> decide

/-- Settles O9: ten closed computations of the decoder. -/
theorem sampleWordsDecode : Obligations.SampleWordsDecode :=
  ⟨rfl, rfl, rfl, rfl, rfl, rfl, rfl, rfl, rfl, rfl⟩

end Sys2Proof

/-! PROOFS. The assembly form of a program (30_encoding.md R71 to R74): disassembly of a line's cells, and labels. -/

namespace Sys2Proof.Machine

/-! Disassembly. -/

/-- The mode a written operand stands for, `[n]` or `#n` (30_encoding.md R71). -/
def AsmOperand.mode {α : Type} : AsmOperand α → Mode
  | .position _ => .position
  | .immediate _ => .immediate

@[simp] theorem asmOperand_mode_number (a : AsmOperand Word) : asmOperand a.mode a.number = a := by cases a <;> rfl

theorem modeDigit_lt {α : Type} (a : AsmOperand α) : a.modeDigit < 10 := by cases a <;> simp [AsmOperand.modeDigit]

/-- A written operand's digit stands for its mode. -/
@[simp] theorem effectiveMode_modeDigit {α : Type} (p : Params) (a : AsmOperand α) :
    effectiveMode p .value a.modeDigit = some a.mode := by cases a <;> rfl

/-- A digit 0 is legal in an unused slot, checked or not. -/
@[simp] theorem effectiveMode_unused_zero (p : Params) : effectiveMode p .unused 0 = some .position := by
  cases h : p.checkUnusedModeDigits <;> simp [effectiveMode, modeOfDigit, h]

/-- The canonical word decodes to the instruction with its digits, when these have effective modes. -/
theorem decode_canonicalWord {p : Params} {op : Opcode} {d1 d2 : Nat} {m : Slots Mode} (h1 : d1 < 10) (h2 : d2 < 10)
    (hm : effectiveMode p op.classes.s1 d1 = some m.s1 ∧ effectiveMode p op.classes.s2 d2 = some m.s2 ∧
      effectiveMode p op.classes.s3 0 = some m.s3) :
    decode p (canonicalWord op d1 d2) = .ok (op.instr ⟨⟨d1, d2, 0⟩, m⟩) := by
  have hwf : WellFormed p (op.instr ⟨⟨d1, d2, 0⟩, m⟩) = true := by
    rw [wellFormed_iff, instr_opcode, instr_fields, effectiveModes_ok]
    exact ⟨by simp [digitsInRange, h1, h2], hm⟩
  have hdec := decodeInvertsEncode p _ hwf
  rwa [encode, instr_opcode, instr_fields] at hdec

/-- Disassembling cells that begin with a canonical word goes on with its instruction. -/
theorem disassemble_canonicalWord {p : Params} {op : Opcode} {d1 d2 : Nat} {m : Slots Mode} (rest : List Word)
    (h1 : d1 < 10) (h2 : d2 < 10)
    (hm : effectiveMode p op.classes.s1 d1 = some m.s1 ∧ effectiveMode p op.classes.s2 d2 = some m.s2 ∧
      effectiveMode p op.classes.s3 0 = some m.s3) :
    disassemble p (canonicalWord op d1 d2 :: rest) = disassembleInstr (op.instr ⟨⟨d1, d2, 0⟩, m⟩) rest := by
  rw [disassemble, decode_canonicalWord h1 h2 hm]

/-- A line of two operands and a destination: slots of the classes value, value, forced. -/
theorem disassemble_twoOperands_dst {p : Params} {op : Opcode} (hc : op.classes = ⟨.value, .value, .forced⟩)
    (a b : AsmOperand Word) (rest : List Word) :
    disassemble p (canonicalWord op a.modeDigit b.modeDigit :: rest) =
      disassembleInstr (op.instr ⟨⟨a.modeDigit, b.modeDigit, 0⟩, ⟨a.mode, b.mode, .immediate⟩⟩) rest :=
  disassemble_canonicalWord rest (modeDigit_lt a) (modeDigit_lt b) (by simp [hc])

/-- A line of a condition and a target: slots of the classes value, value, unused. -/
theorem disassemble_twoOperands {p : Params} {op : Opcode} (hc : op.classes = ⟨.value, .value, .unused⟩)
    (a b : AsmOperand Word) (rest : List Word) :
    disassemble p (canonicalWord op a.modeDigit b.modeDigit :: rest) =
      disassembleInstr (op.instr ⟨⟨a.modeDigit, b.modeDigit, 0⟩, ⟨a.mode, b.mode, .position⟩⟩) rest :=
  disassemble_canonicalWord rest (modeDigit_lt a) (modeDigit_lt b) (by simp [hc])

/-- Settles O10: the line's word decodes to its opcode with the operands' modes, and each operand is its mode and its
number. -/
theorem disassemblyInvertsTheCanonicalEncoding : Obligations.DisassemblyInvertsTheCanonicalEncoding := by
  intro p l rest hl
  cases l with
  | add a b d => exact (disassemble_twoOperands_dst rfl a b _).trans (by simp [Opcode.instr, disassembleInstr])
  | mul a b d => exact (disassemble_twoOperands_dst rfl a b _).trans (by simp [Opcode.instr, disassembleInstr])
  | lt a b d => exact (disassemble_twoOperands_dst rfl a b _).trans (by simp [Opcode.instr, disassembleInstr])
  | eq a b d => exact (disassemble_twoOperands_dst rfl a b _).trans (by simp [Opcode.instr, disassembleInstr])
  | jt c t => exact (disassemble_twoOperands rfl c t _).trans (by simp [Opcode.instr, disassembleInstr])
  | jf c t => exact (disassemble_twoOperands rfl c t _).trans (by simp [Opcode.instr, disassembleInstr])
  | input d =>
    exact disassemble_canonicalWord (op := .input) (m := ⟨.immediate, .position, .position⟩) _ (by decide) (by decide)
      (by simp [Opcode.classes])
  | output a =>
    exact (disassemble_canonicalWord (op := .output) (m := ⟨a.mode, .position, .position⟩) _ (modeDigit_lt a)
      (by decide) (by simp [Opcode.classes])).trans (by simp [Opcode.instr, disassembleInstr])
  | halt =>
    exact disassemble_canonicalWord (op := .halt) (m := ⟨.position, .position, .position⟩) _ (by decide) (by decide)
      (by simp [Opcode.classes])
  | word n => exact absurd rfl (hl n)

/-! Labels. -/

/-- The number of cells a program's lines take. -/
def progSize : List AsmStmt → Nat
  | [] => 0
  | .label _ :: rest => progSize rest
  | .line l :: rest => l.size + progSize rest

/-- A line has as many cells as its size says. -/
@[simp] theorem cells_length (l : AsmLine Word) : l.cells.length = l.size := by cases l <;> rfl

/-- Resolving the references of a line does not change its size. -/
theorem size_of_resolve {labels : List (String × Nat)} {l : AsmLine AsmRef} {l' : AsmLine Word}
    (h : l.resolve labels = some l') : l'.size = l.size := by
  cases l <;> simp only [AsmLine.resolve, bind, pure, Option.bind_eq_some_iff, Option.some.injEq] at h
  case add | mul | lt | eq => obtain ⟨_, -, _, -, _, -, rfl⟩ := h; rfl
  case jt | jf => obtain ⟨_, -, _, -, rfl⟩ := h; rfl
  case input | output | word => obtain ⟨_, -, rfl⟩ := h; rfl
  case halt => cases h; rfl

/-- A program whose first statement is a line has that line's cells first. -/
theorem assembleWith_line {labels : List (String × Nat)} {l : AsmLine AsmRef} {prog : List AsmStmt} {cells : List Word} :
    assembleWith labels (.line l :: prog) = some cells ↔ ∃ l' rest, l.resolve labels = some l' ∧
      assembleWith labels prog = some rest ∧ l'.cells ++ rest = cells := by
  simp only [assembleWith, bind, pure, Option.bind_eq_some_iff, Option.some.injEq]
  constructor
  · rintro ⟨l', hl, rest, hrest, rfl⟩
    exact ⟨l', rest, hl, hrest, rfl⟩
  · rintro ⟨l', rest, hl, hrest, rfl⟩
    exact ⟨l', hl, rest, hrest, rfl⟩

/-- A program and its continuation are assembled one after the other. -/
theorem assembleWith_append {labels : List (String × Nat)} {more : List AsmStmt} :
    ∀ {prog : List AsmStmt} {cells : List Word}, assembleWith labels (prog ++ more) = some cells →
      ∃ first rest, cells = first ++ rest ∧ assembleWith labels prog = some first ∧
        assembleWith labels more = some rest
  | [], cells, h => ⟨[], cells, rfl, rfl, h⟩
  | .label _ :: prog, _, h => assembleWith_append (prog := prog) h
  | .line l :: prog, _, h => by
    obtain ⟨l', tail, hl, htail, rfl⟩ := assembleWith_line.mp h
    obtain ⟨first, rest, rfl, hfirst, hrest⟩ := assembleWith_append (prog := prog) htail
    exact ⟨l'.cells ++ first, rest, (List.append_assoc _ _ _).symm, assembleWith_line.mpr ⟨l', first, hl, hfirst, rfl⟩,
      hrest⟩

/-- The assembled cells are as many as the lines' sizes say. -/
theorem assembleWith_length {labels : List (String × Nat)} :
    ∀ {prog : List AsmStmt} {cells : List Word}, assembleWith labels prog = some cells → cells.length = progSize prog
  | [], _, h => by cases h; rfl
  | .label _ :: prog, _, h => assembleWith_length (prog := prog) h
  | .line l :: prog, _, h => by
    obtain ⟨l', rest, hl, hrest, rfl⟩ := assembleWith_line.mp h
    rw [List.length_append, cells_length, size_of_resolve hl, assembleWith_length hrest, progSize]

/-- The labels of a continuation are those of a program that starts where the first part ends. -/
theorem labelsFrom_append (more : List AsmStmt) : ∀ (prog : List AsmStmt) (a : Nat),
    labelsFrom a (prog ++ more) = labelsFrom a prog ++ labelsFrom (a + progSize prog) more
  | [], _ => rfl
  | .label name :: prog, a => congrArg ((name, a) :: ·) (labelsFrom_append more prog a)
  | .line l :: prog, a => by
    simp only [List.cons_append, labelsFrom, progSize, labelsFrom_append more prog, Nat.add_assoc]

/-- In a table that names no label twice, the lookup of an entry's label gives that entry. -/
theorem lookup_of_nodup {before after : List (String × Nat)} {name : String} {a : Nat}
    (h : ((before ++ (name, a) :: after).map Prod.fst).Nodup) :
    (before ++ (name, a) :: after).lookup name = some a := by
  refine List.lookup_eq_some_iff.mpr ⟨before, after, rfl, fun q hq => ?_⟩
  have hnot : name ∉ before.map Prod.fst := by
    rw [List.map_append, List.map_cons, List.nodup_middle, List.nodup_cons] at h
    exact fun hmem => h.1 (List.mem_append_left _ hmem)
  simp only [bne_iff_ne]
  rintro rfl
  exact hnot (List.mem_map_of_mem hq)

/-- Settles O11: the label's entry is the size of the lines before it, which is the number of their cells, and an
assembled program has no other entry of that name. -/
theorem labelStandsForTheNextCell : Obligations.LabelStandsForTheNextCell := by
  intro before after name cells h
  simp only [assemble] at h
  split at h
  case isFalse => cases h
  case isTrue hnodup =>
  obtain ⟨first, rest, rfl, hfirst, -⟩ := assembleWith_append h
  refine ⟨first, rest, rfl, hfirst, ?_⟩
  have htable : labelsFrom 0 (before ++ .label name :: after) =
      labelsFrom 0 before ++ (name, first.length) :: labelsFrom first.length after := by
    rw [labelsFrom_append, labelsFrom, Nat.zero_add, assembleWith_length hfirst]
  rw [htable] at hnodup ⊢
  exact lookup_of_nodup hnodup

end Sys2Proof.Machine

/-! PROOFS. The start of a run: what it takes from the host, when it is refused, seeding, and the invariant
(10_state.md R28, R31; 70_reset_and_hazards.md R130 to R134). -/

namespace Sys2Proof.Machine

/-- The two outcomes of the start: a state of which everything is known, for an image that is not too large. -/
theorem start_eq_next {p : Params} {h : IoChannel} {c : List Word} {s : State} :
    State.start p h c = .next s ↔ c.length ≤ maxMemLen ∧
      s = { mem := Memory.ofImage c, ip := 0#64, runState := .running, err := ErrRecord.none, out := [], params := p,
            channel := h } := by
  unfold State.start
  split_ifs with hc <;> simp [hc, eq_comm]

theorem start_refused_iff {p : Params} {h : IoChannel} {c : List Word} :
    State.start p h c = .refused .imageTooLarge ↔ maxMemLen < c.length := by
  unfold State.start
  split_ifs with hc
  · simp [hc]
  · simpa using hc

/-- Settles O13: the started state is known, and its STATUS is a closed computation. -/
theorem startTakesTheParametersAndTheHost : Obligations.StartTakesTheParametersAndTheHost := by
  intro p h image s hs
  obtain ⟨-, rfl⟩ := start_eq_next.mp hs
  exact ⟨rfl, rfl, rfl, rfl⟩

/-- Settles O15: the bound of the start; the empty image keeps it. -/
theorem onlyTooLargeImagesAreRefused : Obligations.OnlyTooLargeImagesAreRefused :=
  ⟨fun _ _ _ => start_refused_iff, rfl⟩

/-- A loaded image read at any address: 0 beyond its end (log entry 2). -/
theorem get_ofImage_getD (c : List Word) (a : Nat) : (Memory.ofImage c).get a = c.getD a 0#64 := by
  by_cases ha : a < c.length
  · rw [get_ofImage c a ha, List.getD_eq_getElem _ _ ha]
  · rw [List.getD_eq_default _ _ (not_lt.mp ha)]
    exact cellAt_above (ofImage_wf c) (by rw [ofImage_len]; exact not_lt.mp ha)

/-- Settles O14: both memories are loaded images, one of them the other with one value replaced. -/
theorem seedingChangesOneCell : Obligations.SeedingChangesOneCell := by
  intro p h c a v s t ha hs ht
  obtain ⟨-, rfl⟩ := start_eq_next.mp hs
  obtain ⟨-, rfl⟩ := start_eq_next.mp ht
  refine ⟨by simp only [ofImage_len, seedImage, List.length_set], fun b => ?_⟩
  simp only [get_ofImage_getD, seedImage, List.getD_eq_getElem?_getD, List.getElem?_set]
  by_cases hb : b = a
  · subst hb
    simp [ha]
  · simp [hb, Ne.symm hb]

/-- The record of a run that has not failed agrees with its run state (10_state.md R28). -/
theorem errOk_of_none {s : State} (hr : s.runState ≠ .failed) (he : s.err = ErrRecord.none) : s.ErrOk where
  noneUntilFailed _ := he
  errorWhenFailed h := absurd h hr
  atIsIp h := absurd h hr
  valueLow := by rw [he]; decide
  valueHigh := by rw [he]; decide
  slotOnlyBadMode := by rw [he]; decide

/-- Settles O17: the loaded image is canonical memory within the bound, and the run stands at 0 without error. -/
theorem startMeetsTheInvariant : Obligations.StartMeetsTheInvariant := by
  intro p h c s hs
  obtain ⟨hlen, rfl⟩ := start_eq_next.mp hs
  exact ⟨ofImage_wf c, (ofImage_len c).symm ▸ hlen, by simp, errOk_of_none (by simp) rfl⟩

/-- Settles O16: the reset state is the start of the empty image. -/
theorem resetMeetsTheInvariant : Obligations.ResetMeetsTheInvariant :=
  startMeetsTheInvariant _ _ _ _ onlyTooLargeImagesAreRefused.2

end Sys2Proof.Machine

/-! PROOFS. What every instruction does, said once: it raises an error that can be recorded, or it goes on by writing
one valid cell or by moving ip. The invariant and the precision of failures follow (10_state.md R23, R28;
60_exceptions.md R118). -/

namespace Sys2Proof.Machine

/-! The errors that an instruction can raise. -/

/-- What every raise of an instruction at ip is: an error, with a slot only for a bad mode digit, and a value that is an
i64 or at most the address of a parameter cell (10_state.md R28). -/
structure State.MayRaise (s : State) (r : Raise) : Prop where
  isError : r.cause ≠ .noError
  slotOnlyBadMode : r.slot ≠ 0 ↔ r.cause = .decode .badMode
  valueLow : -9223372036854775808 ≤ r.value
  valueHigh : r.value ≤ 9223372036854775807 ∨ r.value ≤ s.ip.toNat + 3

/-- An AddressError has no slot, so the address alone is to be in range. -/
theorem mayRaise_addressError {s : State} (c : AddressCause) {a : Int} (hlow : -9223372036854775808 ≤ a)
    (hhigh : a ≤ 9223372036854775807 ∨ a ≤ s.ip.toNat + 3) : s.MayRaise (addressError c a) :=
  ⟨by simp [addressError], by simp [addressError], hlow, hhigh⟩

/-- An address that a cell holds is an i64. -/
theorem mayRaise_cellAddress (s : State) (c : AddressCause) (w : Word) : s.MayRaise (addressError c w.toInt) := by
  have hlow := BitVec.le_toInt w
  have hhigh := BitVec.toInt_lt (x := w)
  exact mayRaise_addressError c (by omega) (.inl (by omega))

/-- The address of a parameter cell. -/
theorem mayRaise_paramAddress (s : State) {k : Nat} (hk : k ≤ 3) :
    s.MayRaise (addressError .read (s.ip.toNat + k)) :=
  mayRaise_addressError .read (by omega) (.inr (by omega))

/-- The first missing cell of a value operand is its parameter cell or the cell that this one addresses. -/
theorem mayRaise_operandFault {s : State} {k : Nat} {m : Mode} {x : Int} (hk : k ≤ 3) (h : s.OperandFaults k m x) :
    s.MayRaise (addressError .read x) := by
  rcases h with ⟨rfl, -⟩ | ⟨-, p, -, rfl, -⟩
  · exact mayRaise_paramAddress s hk
  · exact mayRaise_cellAddress s .read p

theorem mayRaise_ioError (s : State) (c : IoCause) : s.MayRaise (ioError c) :=
  ⟨by simp [ioError], by simp [ioError], by simp [ioError], .inl (by simp [ioError])⟩

theorem mayRaise_overflowError (s : State) (c : OverflowCause) : s.MayRaise (overflowError c) :=
  ⟨by simp [overflowError], by simp [overflowError], by simp [overflowError], .inl (by simp [overflowError])⟩

/-- A DecodeError's value is the word, and its slot is one of 1, 2, 3 for a bad mode digit and 0 otherwise
(30_encoding.md R66). -/
theorem decode_error_shape {p : Params} {w : Word} {e : DecodeError} (h : decode p w = .error e) :
    e.value = w.toInt ∧ (e.slot ≠ 0 ↔ e.cause = .badMode) := by
  by_cases hneg : w.toInt < 0
  · cases (decode_of_neg hneg).symm.trans h
    simp
  have hnn := not_lt.mp hneg
  cases ho : opcodeOfNumber (w.toNat % 100) with
  | none =>
    cases (decode_of_unknownOpcode hnn ho).symm.trans h
    simp
  | some op =>
  have hop := opcodeOfNumber_some.mp ho
  cases hm : effectiveModes p op.classes (modeDigits w.toNat) with
  | error k =>
    cases (decode_of_badSlot hnn hop hm).symm.trans h
    have hk : k ≠ 0 := by
      rcases effectiveModes_error.mp hm with ⟨rfl, -⟩ | ⟨rfl, -⟩ | ⟨rfl, -⟩ <;> decide
    simp [hk]
  | ok m =>
    by_cases hh : p.highDigits = .fault ∧ w.toNat / 100000 ≠ 0
    · cases (decode_of_highDigits hnn hop hm hh.1 (by have := hh.2; omega)).symm.trans h
      simp
    · have hok : decode p w = .ok (op.instr ⟨modeDigits w.toNat, m⟩) :=
        decode_ok.mpr ⟨hnn, by simpa using hop, by simp, by simpa using hm, hh⟩
      cases hok.symm.trans h

theorem mayRaise_decodeRaise {s : State} {p : Params} {w : Word} {e : DecodeError} (h : decode p w = .error e) :
    s.MayRaise (decodeRaise e) := by
  obtain ⟨hvalue, hslot⟩ := decode_error_shape h
  have hlow := BitVec.le_toInt w
  have hhigh := BitVec.toInt_lt (x := w)
  refine ⟨by simp [decodeRaise], ?_, ?_, .inl ?_⟩
  · simpa [decodeRaise] using hslot
  · simp only [decodeRaise, hvalue]; omega
  · simp only [decodeRaise, hvalue]; omega

/-- A raise at the fetch or by the decoder. -/
theorem mayRaise_fetchInstr {s : State} {r : Raise} (h : s.fetchInstr = .error r) : s.MayRaise r := by
  rcases fetchInstr_error.mp h with ⟨-, rfl⟩ | ⟨-, e, he, rfl⟩
  · exact mayRaise_addressError .fetch (by omega) (.inr (by omega))
  · exact mayRaise_decodeRaise he

/-! The step of a run, but for HALT. -/

/-- Where a completed instruction leaves ip: on by at most four cells, or at a target that is not negative
(40_dispatch.md R87; 43_jumps.md R106). -/
def State.NextIp (s : State) (ip : Word) : Prop := (∃ n ≤ 4, ip = s.ip + BitVec.ofNat 64 n) ∨ 0 ≤ ip.toInt

/-- The next state of an instruction other than HALT. -/
inductive Progress (s : State) : State → Prop
  /-- Failure entry, after at most a host request. -/
  | raises (c : IoChannel) (r : Raise) (hr : s.MayRaise r) : Progress s ({ s with channel := c }.raise r)
  /-- The one write of an instruction, at a valid address. -/
  | writes (c : IoChannel) (ip : Word) (hip : s.NextIp ip) (a : Int) (ha : s.mem.valid a) (v : Word) :
      Progress s { s with mem := s.mem.set a.toNat v, ip := ip, channel := c }
  /-- No write: a jump, or OUT. -/
  | moves (c : IoChannel) (ip : Word) (hip : s.NextIp ip) (o : List Word) :
      Progress s { s with ip := ip, out := o, channel := c }

/-- The ALU's only error is an OverflowError. -/
def AluRaisesOverflow (alu : Word → Word → Except Raise Word) : Prop :=
  ∀ a b r, alu a b = .error r → ∃ c, r = overflowError c

theorem aluResult_raisesOverflow {p : Params} {k : OverflowCause} {x : Int} {r : Raise}
    (h : aluResult p k x = .error r) : ∃ c, r = overflowError c := by
  rcases aluResult_cases p k x with hok | ⟨herr, -⟩
  · cases hok.symm.trans h
  · cases herr.symm.trans h
    exact ⟨k, rfl⟩

theorem aluAdd_raisesOverflow (p : Params) : AluRaisesOverflow (aluAdd p) := fun _ _ _ => aluResult_raisesOverflow

theorem aluMul_raisesOverflow (p : Params) : AluRaisesOverflow (aluMul p) := fun _ _ _ => aluResult_raisesOverflow

/-- A comparison raises nothing. -/
theorem total_raisesOverflow (op : Word → Word → Word) : AluRaisesOverflow fun a b => .ok (op a b) :=
  fun _ _ _ hr => by cases hr

theorem writeResult_progress {s t : State} {f : Fields} {alu : Word → Word → Except Raise Word}
    (halu : AluRaisesOverflow alu) (h : s.writeResult f alu = .next t) : Progress s t := by
  rcases writeResult_cases h with ⟨_, _, d, r, -, -, -, -, hv, rfl⟩ | ⟨x, hx, rfl⟩ | ⟨_, x, -, hx, rfl⟩ |
    ⟨_, _, -, -, -, rfl⟩ | ⟨a, b, _, r, -, -, -, hr, rfl⟩ | ⟨_, _, d, _, -, -, -, -, -, rfl⟩
  · exact .writes s.channel _ (.inl ⟨4, le_rfl, rfl⟩) d.toInt hv r
  · exact .raises s.channel _ (mayRaise_operandFault (by decide) hx)
  · exact .raises s.channel _ (mayRaise_operandFault (by decide) hx)
  · exact .raises s.channel _ (mayRaise_paramAddress s le_rfl)
  · obtain ⟨c, rfl⟩ := halu a b r hr
    exact .raises s.channel _ (mayRaise_overflowError s c)
  · exact .raises s.channel _ (mayRaise_cellAddress s .write d)

theorem jumpWhen_progress {s t : State} {f : Fields} {taken : Word → Bool} (h : s.jumpWhen f taken = .next t) :
    Progress s t := by
  rcases jumpWhen_cases h with
    ⟨_, g, -, -, ⟨-, hg, rfl⟩ | ⟨-, -, rfl⟩ | ⟨-, rfl⟩⟩ | ⟨x, hx, rfl⟩ | ⟨_, x, -, hx, rfl⟩
  · exact .moves s.channel g (.inr hg) s.out
  · exact .raises s.channel _ (mayRaise_cellAddress s .jump g)
  · exact .moves s.channel _ (.inl ⟨3, by decide, rfl⟩) s.out
  · exact .raises s.channel _ (mayRaise_operandFault (by decide) hx)
  · exact .raises s.channel _ (mayRaise_operandFault (by decide) hx)

theorem mayRaise_inputDst {s : State} {r : Raise} (h : s.inputDst = .error r) : s.MayRaise r := by
  rcases inputDst_error.mp h with ⟨-, rfl⟩ | ⟨p, -, -, rfl⟩
  · exact mayRaise_paramAddress s (by decide)
  · exact mayRaise_cellAddress s .write p

theorem execIn_progress {s t : State} {f : Fields} (h : execIn f s = .next t) : Progress s t := by
  rcases execIn_cases h with ⟨r, hr, ho⟩ | ⟨_, -, -, ho⟩ | ⟨d, v, c, hd, -, ho⟩ | ⟨_, c, -, -, ho⟩ | ⟨_, c, -, -, ho⟩
  · cases ho; exact .raises s.channel r (mayRaise_inputDst hr)
  · cases ho
  · obtain ⟨_, -, -, hv⟩ := inputDst_ok.mp hd
    cases ho; exact .writes c _ (.inl ⟨2, by decide, rfl⟩) d hv v
  · cases ho; exact .raises c _ (mayRaise_ioError s _)
  · cases ho; exact .raises c _ (mayRaise_ioError s _)

theorem execOut_progress {s t : State} {f : Fields} (h : execOut f s = .next t) : Progress s t := by
  rcases execOut_cases h with ⟨x, hx, ho⟩ | ⟨v, c, -, -, ho⟩ | ⟨_, c, -, -, ho⟩
  · cases ho; exact .raises s.channel _ (mayRaise_operandFault (by decide) hx)
  · cases ho; exact .moves c _ (.inl ⟨2, by decide, rfl⟩) (s.out ++ [v])
  · cases ho; exact .raises c _ (mayRaise_ioError s _)

/-- Every instruction is HALT, or raises, writes or moves as `Progress` says. -/
theorem exec_isHalt_or_progress {i : Instr} {s t : State} (h : exec i s = .next t) :
    (∃ f, i = .halt f) ∨ Progress s t := by
  cases i with
  | add f => exact .inr (writeResult_progress (aluAdd_raisesOverflow s.params) h)
  | mul f => exact .inr (writeResult_progress (aluMul_raisesOverflow s.params) h)
  | lt f => exact .inr (writeResult_progress (total_raisesOverflow aluLt) h)
  | eq f => exact .inr (writeResult_progress (total_raisesOverflow aluEq) h)
  | input f => exact .inr (execIn_progress (f := f) h)
  | output f => exact .inr (execOut_progress h)
  | jt f => exact .inr (jumpWhen_progress h)
  | jf f => exact .inr (jumpWhen_progress h)
  | halt f => exact .inl ⟨f, rfl⟩

/-- The same of a step: it makes a Running run Halted, or raises, writes or moves. -/
theorem step_halts_or_progress {s t : State} (h : step s = .next t) :
    s.runState = .running ∧ (t = { s with runState := .halted } ∨ Progress s t) := by
  rcases step_cases h with ⟨-, ho⟩ | ⟨hr, r, hf, ho⟩ | ⟨hr, i, -, ho⟩
  · cases ho
  · cases ho
    exact ⟨hr, .inr (.raises s.channel r (mayRaise_fetchInstr hf))⟩
  · rcases exec_isHalt_or_progress ho.symm with ⟨f, rfl⟩ | hp
    · cases ho
      exact ⟨hr, .inl rfl⟩
    · exact ⟨hr, .inr hp⟩

/-! The invariant. -/

/-- Failure entry keeps the invariant, when the error's value is in the record's range. -/
theorem inv_raise {s : State} {r : Raise} (h : s.Inv) (c : IoChannel) (hr : s.MayRaise r)
    (hv : r.value ≤ 9223372036854775811) : ({ s with channel := c }.raise r).Inv where
  memWf := h.memWf
  memLen := h.memLen
  ipBound := h.ipBound
  errOk := ⟨fun hn => absurd rfl hn, fun _ => hr.isError, fun _ => rfl, hr.valueLow, hv, hr.slotOnlyBadMode⟩

/-- The record of a run that goes on says the same wherever the run stands. -/
theorem errOk_of_goesOn {s t : State} (h : s.ErrOk) (hr : s.runState = .running) (hn : t.runState ≠ .failed)
    (he : t.err = s.err) : t.ErrOk :=
  errOk_of_none hn (he.trans (h.noneUntilFailed (by rw [hr]; decide)))

/-- From an instruction within memory, ip does not pass 2^63 + 3 (10_state.md R23). -/
theorem nextIp_bound {s : State} {ip : Word} (hip : s.NextIp ip) (h : s.ip.toNat < 9223372036854775808) :
    ip.toNat ≤ 9223372036854775811 := by
  rcases hip with ⟨n, hn, rfl⟩ | hnn
  · simp only [BitVec.toNat_add, BitVec.toNat_ofNat]
    omega
  · have := toInt_nonneg_iff.mp hnn
    omega

/-- An instruction that was fetched from memory keeps the invariant. -/
theorem inv_of_progress {s t : State} (h : s.Inv) (hr : s.runState = .running) (hl : s.ip.toNat < s.mem.len)
    (hp : Progress s t) : t.Inv := by
  have hlen := h.memLen
  have hip63 : s.ip.toNat < 9223372036854775808 := lt_of_lt_of_le hl hlen
  have hrun : s.runState ≠ .failed := by rw [hr]; decide
  cases hp with
  | raises c r hm => exact inv_raise h c hm (by have := hm.valueHigh; omega)
  | writes c ip hip a ha v =>
    exact ⟨set_wf_of_valid h.memWf ha, hlen, nextIp_bound hip hip63, errOk_of_goesOn h.errOk hr hrun rfl⟩
  | moves c ip hip o => exact ⟨h.memWf, hlen, nextIp_bound hip hip63, errOk_of_goesOn h.errOk hr hrun rfl⟩

/-- Settles O18: a fetch that fails records an ip within its bound, HALT changes the run state alone, and every other
instruction was fetched from memory and raises, writes one valid cell or moves ip. -/
theorem stepKeepsTheInvariant : Obligations.StepKeepsTheInvariant := by
  intro s t hinv h
  rcases step_cases h with ⟨-, ho⟩ | ⟨hr, r, hf, ho⟩ | ⟨hr, i, hf, ho⟩
  · cases ho
  · cases ho
    have hm := mayRaise_fetchInstr hf
    refine inv_raise hinv s.channel hm ?_
    have hip := hinv.ipBound
    rcases fetchInstr_error.mp hf with ⟨-, rfl⟩ | ⟨-, e, he, rfl⟩
    · simp only [addressError]
      omega
    · have hhigh := BitVec.toInt_lt (x := s.mem.get s.ip.toNat)
      simp only [decodeRaise, (decode_error_shape he).1]
      omega
  · obtain ⟨hl, -⟩ := fetchInstr_ok.mp hf
    rcases exec_isHalt_or_progress ho.symm with ⟨f, rfl⟩ | hp
    · cases ho
      exact ⟨hinv.memWf, hinv.memLen, hinv.ipBound, errOk_of_goesOn hinv.errOk hr (by simp) rfl⟩
    · exact inv_of_progress hinv hr hl hp

/-! Failures. -/

/-- An instruction goes on in the same condition, or has failed at its own address. -/
theorem goesOnOrFails_of_progress {s t : State} (hp : Progress s t) : GoesOnOrFails s t := by
  cases hp with
  | raises c r hm => exact .inr ⟨rfl, hm.isError, rfl, rfl, rfl⟩
  | writes c ip _ a _ v => exact .inl ⟨rfl, rfl⟩
  | moves c ip _ o => exact .inl ⟨rfl, rfl⟩

/-- Settles O24: of the steps of a Running run, only failure entry ends Failed. -/
theorem failureIsPrecise : Obligations.FailureIsPrecise := by
  intro s t h hfailed
  obtain ⟨hr, rfl | hp⟩ := step_halts_or_progress h
  · cases hfailed
  have hrun : s.runState ≠ .failed := by rw [hr]; decide
  cases hp with
  | raises c r hm => exact ⟨rfl, rfl, rfl, rfl, hm.isError, rfl⟩
  | writes c ip _ a _ v => exact absurd hfailed hrun
  | moves c ip _ o => exact absurd hfailed hrun

/-- Settles O25: HALT, a write and a move leave the record. -/
theorem onlyFailureWritesTheErrorRecord : Obligations.OnlyFailureWritesTheErrorRecord := by
  intro s t h hn
  obtain ⟨-, rfl | hp⟩ := step_halts_or_progress h
  · rfl
  rcases goesOnOrFails_of_progress hp with ⟨-, herr⟩ | ⟨hfailed, -⟩
  · exact herr
  · exact absurd hfailed hn

end Sys2Proof.Machine

/-! PROOFS. The handlers of two operands: ADD, MUL, LT, EQ (41_arithmetic.md, 44_compare.md) and JT, JF (43_jumps.md).
First each way that a shared access order ends, from what the operands are. -/

namespace Sys2Proof.Machine

/-! ADD, MUL, LT, EQ. -/

theorem writeResult_operand1Faults {s : State} {f : Fields} {alu : Word → Word → Except Raise Word} {x : Int}
    (hx : s.OperandFaults 1 f.modes.s1 x) : s.writeResult f alu = .next (s.raise (addressError .read x)) := by
  simp only [State.writeResult, val_error.mpr ⟨x, hx, rfl⟩, error_bind, complete_error]

theorem writeResult_operand2Faults {s : State} {f : Fields} {alu : Word → Word → Except Raise Word} {a : Word}
    {x : Int} (ha : s.OperandIs 1 f.modes.s1 a) (hx : s.OperandFaults 2 f.modes.s2 x) :
    s.writeResult f alu = .next (s.raise (addressError .read x)) := by
  simp only [State.writeResult, val_ok.mpr ha, val_error.mpr ⟨x, hx, rfl⟩, ok_bind, error_bind, complete_error]

theorem writeResult_dstParamFaults {s : State} {f : Fields} {alu : Word → Word → Except Raise Word} {a b : Word}
    (ha : s.OperandIs 1 f.modes.s1 a) (hb : s.OperandIs 2 f.modes.s2 b) (hd : ¬ s.mem.valid (s.ip.toNat + 3)) :
    s.writeResult f alu = .next (s.raise (addressError .read (s.ip.toNat + 3))) := by
  have hdst : s.dst 3 = .error (addressError .read (s.ip.toNat + 3)) := dst_error.mpr ⟨hd, rfl⟩
  simp only [State.writeResult, val_ok.mpr ha, val_ok.mpr hb, hdst, ok_bind, error_bind, complete_error]

theorem writeResult_aluRaises {s : State} {f : Fields} {alu : Word → Word → Except Raise Word} {a b d : Word}
    {r : Raise} (ha : s.OperandIs 1 f.modes.s1 a) (hb : s.OperandIs 2 f.modes.s2 b)
    (hd : s.CellIs (s.ip.toNat + 3) d) (hr : alu a b = .error r) : s.writeResult f alu = .next (s.raise r) := by
  have hdst : s.dst 3 = .ok d.toInt := dst_ok.mpr ⟨d, hd, rfl⟩
  simp only [State.writeResult, val_ok.mpr ha, val_ok.mpr hb, hdst, hr, ok_bind, error_bind, complete_error]

theorem writeResult_dstFaults {s : State} {f : Fields} {alu : Word → Word → Except Raise Word} {a b d r : Word}
    (ha : s.OperandIs 1 f.modes.s1 a) (hb : s.OperandIs 2 f.modes.s2 b) (hd : s.CellIs (s.ip.toNat + 3) d)
    (hr : alu a b = .ok r) (hv : ¬ s.mem.valid d.toInt) :
    s.writeResult f alu = .next (s.raise (addressError .write d.toInt)) := by
  have hdst : s.dst 3 = .ok d.toInt := dst_ok.mpr ⟨d, hd, rfl⟩
  have hw := (memWrite_error (v := r)).mpr ⟨hv, rfl⟩
  simp only [State.writeResult, val_ok.mpr ha, val_ok.mpr hb, hdst, hr, hw, ok_bind, error_bind, complete_error]

/-- ADD, MUL, LT and EQ share one access order and differ in the ALU's operation alone. -/
theorem exec_binary {s : State} {f : Fields} {i : Instr} (hi : i ∈ [Instr.add f, .mul f, .lt f, .eq f]) :
    ∃ alu, AluRaisesOverflow alu ∧ exec i s = s.writeResult f alu := by
  simp only [List.mem_cons, List.not_mem_nil, or_false] at hi
  rcases hi with rfl | rfl | rfl | rfl
  · exact ⟨_, aluAdd_raisesOverflow s.params, rfl⟩
  · exact ⟨_, aluMul_raisesOverflow s.params, rfl⟩
  · exact ⟨_, total_raisesOverflow aluLt, rfl⟩
  · exact ⟨_, total_raisesOverflow aluEq, rfl⟩

/-- Settles O34: a result in i64 is what the ALU gives and what is written. -/
theorem arithmeticStoresTheExactResult : Obligations.ArithmeticStoresTheExactResult := by
  intro s f a b d ha hb hd hv
  constructor
  · intro hin
    exact ⟨_, wrap64_toInt hin, writeResult_completes ha hb hd (aluResult_inRange hin) hv⟩
  · intro hin
    exact ⟨_, wrap64_toInt hin, writeResult_completes ha hb hd (aluResult_inRange hin) hv⟩

/-- Settles O35: under Wrap the ALU always gives the result modulo 2^64, which is that of the words. -/
theorem wrapWritesTheLowBits : Obligations.WrapWritesTheLowBits := by
  intro s f a b d hp ha hb hd hv
  constructor
  · rw [← wrap64_add a b]
    exact writeResult_completes ha hb hd (aluResult_wrap hp) hv
  · rw [← wrap64_mul a b]
    exact writeResult_completes ha hb hd (aluResult_wrap hp) hv

/-- Settles O36: the ALU raises before the destination is looked at as an address. -/
theorem overflowFaultRaises : Obligations.OverflowFaultRaises := by
  intro s f a b d hp ha hb hd
  constructor
  · exact fun hout => writeResult_aluRaises (alu := aluAdd s.params) ha hb hd (aluResult_fault hout hp)
  · exact fun hout => writeResult_aluRaises (alu := aluMul s.params) ha hb hd (aluResult_fault hout hp)

/-- Settles O38: the three reads of the shared access order, in their order. -/
theorem binaryOperandReadFaults : Obligations.BinaryOperandReadFaults := by
  intro s f i hi
  obtain ⟨alu, -, hexec⟩ := exec_binary (s := s) hi
  rw [hexec]
  exact ⟨fun _ => writeResult_operand1Faults, fun _ _ => writeResult_operand2Faults,
    fun _ _ => writeResult_dstParamFaults⟩

/-- Within i64 or under Wrap, the ALU has a result. -/
theorem aluResult_of_inRange_or_wrap {p : Params} {k : OverflowCause} {x : Int} (h : inI64 x ∨ p.overflow = .wrap) :
    aluResult p k x = .ok (wrap64 x) :=
  h.elim aluResult_inRange aluResult_wrap

/-- Settles O39: with a result in hand, the write's bounds check raises. -/
theorem binaryDestinationFault : Obligations.BinaryDestinationFault := by
  intro s f a b d ha hb hd hv
  refine ⟨fun h => ?_, fun h => ?_, ?_, ?_⟩
  · exact writeResult_dstFaults ha hb hd (aluResult_of_inRange_or_wrap h) hv
  · exact writeResult_dstFaults ha hb hd (aluResult_of_inRange_or_wrap h) hv
  · exact writeResult_dstFaults (alu := fun a b => .ok (aluLt a b)) ha hb hd rfl hv
  · exact writeResult_dstFaults (alu := fun a b => .ok (aluEq a b)) ha hb hd rfl hv

/-! The frame of a write. -/

/-- Memory is as it was, or differs by one write at the address that the destination parameter k holds. -/
def WritesAtMostDst (s t : State) (k : Nat) : Prop :=
  t.mem = s.mem ∨ ∃ d v, s.dst k = .ok d ∧ 0 ≤ d ∧ t.mem = s.mem.set d.toNat v

/-- Then every cell but the destination reads as before. -/
theorem get_of_writesAtMostDst {s t : State} {k : Nat} (h : WritesAtMostDst s t k) (hwf : s.mem.wf = true) {d : Int}
    (hd : s.dst k = .ok d) {b : Nat} (hb : (b : Int) ≠ d) : t.mem.get b = s.mem.get b := by
  rcases h with hmem | ⟨e, v, he, h0, hmem⟩
  · rw [hmem]
  · cases hd.symm.trans he
    rw [hmem, get_set hwf, if_neg (by omega)]

/-- And without a destination memory is unchanged. -/
theorem mem_of_writesAtMostDst {s t : State} {k : Nat} (h : WritesAtMostDst s t k) {r : Raise}
    (hr : s.dst k = .error r) : t.mem = s.mem := by
  rcases h with hmem | ⟨e, v, he, -⟩
  · exact hmem
  · cases hr.symm.trans he

/-- The shared access order of ADD, MUL, LT and EQ leaves the host's side alone and writes at most its destination. -/
theorem writeResult_frame {s t : State} {f : Fields} {alu : Word → Word → Except Raise Word}
    (h : s.writeResult f alu = .next t) : WritesAtMostDst s t 3 ∧ t.out = s.out ∧ t.channel = s.channel := by
  rcases writeResult_cases h with ⟨_, _, d, r, -, -, hd, -, hv, rfl⟩ | ⟨_, -, rfl⟩ | ⟨_, _, -, -, rfl⟩ |
    ⟨_, _, -, -, -, rfl⟩ | ⟨_, _, _, _, -, -, -, -, rfl⟩ | ⟨_, _, _, _, -, -, -, -, -, rfl⟩
  case inl => exact ⟨.inr ⟨d.toInt, r, dst_ok.mpr ⟨d, hd, rfl⟩, hv.1, rfl⟩, rfl, rfl⟩
  all_goals exact ⟨.inl (raise_mem s _), rfl, rfl⟩

/-- Settles O40: the four instructions are one access order, whose frame this is. -/
theorem binaryFrame : Obligations.BinaryFrame := by
  intro s t f i hi hwf h
  obtain ⟨hlen, hparams⟩ := exec_sameLenAndParams h
  obtain ⟨alu, halu, hexec⟩ := exec_binary (s := s) hi
  rw [hexec] at h
  obtain ⟨hmem, hout, hchannel⟩ := writeResult_frame h
  exact ⟨fun d hd b hb => get_of_writesAtMostDst hmem hwf hd hb, fun r hr => mem_of_writesAtMostDst hmem hr, hlen, hout,
    hparams, hchannel, goesOnOrFails_of_progress (writeResult_progress halu h)⟩

/-! JT and JF. -/

theorem jumpWhen_operand1Faults {s : State} {f : Fields} {taken : Word → Bool} {x : Int}
    (hx : s.OperandFaults 1 f.modes.s1 x) : s.jumpWhen f taken = .next (s.raise (addressError .read x)) := by
  simp only [State.jumpWhen, val_error.mpr ⟨x, hx, rfl⟩, error_bind, complete_error]

theorem jumpWhen_operand2Faults {s : State} {f : Fields} {taken : Word → Bool} {c : Word} {x : Int}
    (hc : s.OperandIs 1 f.modes.s1 c) (hx : s.OperandFaults 2 f.modes.s2 x) :
    s.jumpWhen f taken = .next (s.raise (addressError .read x)) := by
  simp only [State.jumpWhen, val_ok.mpr hc, val_error.mpr ⟨x, hx, rfl⟩, ok_bind, error_bind, complete_error]

section Resolved

variable {s : State} {f : Fields} {taken : Word → Bool} {c g : Word}
  (hc : s.OperandIs 1 f.modes.s1 c) (hg : s.OperandIs 2 f.modes.s2 g)
include hc hg

theorem jumpWhen_taken (ht : taken c = true) (h0 : 0 ≤ g.toInt) : s.jumpWhen f taken = .next { s with ip := g } := by
  rw [jumpWhen_resolved hc hg, if_pos ht, jumpTo_ok.mpr ⟨h0, rfl⟩, complete_ok]

theorem jumpWhen_taken_neg (ht : taken c = true) (h0 : g.toInt < 0) :
    s.jumpWhen f taken = .next (s.raise (addressError .jump g.toInt)) := by
  rw [jumpWhen_resolved hc hg, if_pos ht, jumpTo_error.mpr ⟨h0, rfl⟩, complete_error]

theorem jumpWhen_untaken (ht : taken c = false) : s.jumpWhen f taken = .next (s.advance 3) := by
  rw [jumpWhen_resolved hc hg, if_neg (ne_true_of_eq_false ht), complete_ok]

end Resolved

/-- JT and JF share one access order and differ in the condition alone (43_jumps.md R104, R105). -/
theorem exec_jump {s : State} {f : Fields} {i : Instr} (hi : i ∈ [Instr.jt f, .jf f]) :
    ∃ taken : Word → Bool, exec i s = s.jumpWhen f taken ∧
      ∀ c, (i = .jt f ∧ c ≠ 0#64 ∨ i = .jf f ∧ c = 0#64) → taken c = true := by
  simp only [List.mem_cons, List.not_mem_nil, or_false] at hi
  rcases hi with rfl | rfl
  · exact ⟨fun c => c != 0#64, rfl, fun c hc => by simpa using hc⟩
  · exact ⟨fun c => c == 0#64, rfl, fun c hc => by simpa using hc⟩

/-- Settles O48: JT takes a jump on any condition but 0, JF on 0. -/
theorem takenJumpSetsIp : Obligations.TakenJumpSetsIp := by
  intro s f c g hc hg h0
  constructor
  · exact fun hne => jumpWhen_taken (taken := fun c => c != 0#64) hc hg (bne_iff_ne.mpr hne) h0
  · exact fun heq => jumpWhen_taken (taken := fun c => c == 0#64) hc hg (beq_iff_eq.mpr heq) h0

/-- Settles O49: a jump that is not taken does not look at its target as an address. -/
theorem untakenJumpAdvances : Obligations.UntakenJumpAdvances := by
  intro s f c g hc hg
  constructor
  · exact fun heq => jumpWhen_untaken (taken := fun c => c != 0#64) hc hg (by simp [heq])
  · exact fun hne => jumpWhen_untaken (taken := fun c => c == 0#64) hc hg (by simp [hne])

/-- Settles O50: both operands are resolved before the condition is looked at, and a taken jump checks its target. -/
theorem jumpFailures : Obligations.JumpFailures := by
  intro s f i hi
  obtain ⟨taken, hexec, htaken⟩ := exec_jump (s := s) hi
  rw [hexec]
  exact ⟨fun _ => jumpWhen_operand1Faults, fun _ _ => jumpWhen_operand2Faults,
    fun c _ hc hg h0 hcond => jumpWhen_taken_neg hc hg (htaken c hcond) h0⟩

/-- A conditional jump leaves memory and the host's side alone. -/
theorem jumpWhen_frame {s t : State} {f : Fields} {taken : Word → Bool} (h : s.jumpWhen f taken = .next t) :
    t.mem = s.mem ∧ t.out = s.out ∧ t.channel = s.channel := by
  rcases jumpWhen_cases h with
    ⟨_, _, -, -, ⟨-, -, rfl⟩ | ⟨-, -, rfl⟩ | ⟨-, rfl⟩⟩ | ⟨_, -, rfl⟩ | ⟨_, _, -, -, rfl⟩
  all_goals exact ⟨rfl, rfl, rfl⟩

/-- Settles O52: the two instructions are one access order, whose frame this is. -/
theorem jumpFrame : Obligations.JumpFrame := by
  intro s t f i hi h
  obtain ⟨-, hparams⟩ := exec_sameLenAndParams h
  obtain ⟨taken, hexec, -⟩ := exec_jump (s := s) hi
  rw [hexec] at h
  obtain ⟨hmem, hout, hchannel⟩ := jumpWhen_frame h
  exact ⟨hmem, hout, hparams, hchannel, goesOnOrFails_of_progress (jumpWhen_progress h)⟩

/-! The fetch of the next instruction. -/

/-- Settles O20: fetch comes first, and its bounds check raises. -/
theorem fetchPastTheEndFails : Obligations.FetchPastTheEndFails :=
  fun _ hr hl => step_error hr (fetchInstr_error.mpr (.inl ⟨hl, rfl⟩))

/-- Settles O21: the decoder's error is raised before any handler runs. -/
theorem decodeFailureEndsTheRun : Obligations.DecodeFailureEndsTheRun :=
  fun _ e hr hl he => step_error hr (fetchInstr_error.mpr (.inr ⟨hl, e, he, rfl⟩))

/-- Settles O19: fetch and decode succeed, and the step is the handler. -/
theorem stepRunsTheDecodedInstruction : Obligations.StepRunsTheDecodedInstruction :=
  fun _ _ hr hl hd => step_ok hr (fetchInstr_ok.mpr ⟨hl, hd⟩)

/-- Settles O51: the jump stores its target, where the next fetch is past the end. -/
theorem jumpPastTheEndFailsAtTheNextFetch : Obligations.JumpPastTheEndFailsAtTheNextFetch := by
  intro s f c g hr hc hg h0 hlen i hi hcond
  obtain ⟨taken, hexec, htaken⟩ := exec_jump (s := s) hi
  obtain ⟨hnat, -⟩ := toInt_nonneg h0
  refine ⟨_, hexec.trans (jumpWhen_taken hc hg (htaken c hcond) h0), rfl, ?_⟩
  rw [hnat]
  exact fetchPastTheEndFails { s with ip := g } hr (by simp only; omega)

end Sys2Proof.Machine

/-! PROOFS. IN and OUT (42_io.md R98 to R103): each way that the two end, from the destination or operand and the
host's answer, and their frames. -/

namespace Sys2Proof.Machine

/-! IN. -/

theorem execIn_dstRaises {s : State} (f : Fields) {r : Raise} (hd : s.inputDst = .error r) :
    execIn f s = .next (s.raise r) := by
  simp only [execIn, hd]

theorem execIn_unanswered {s : State} (f : Fields) {d : Int} (hd : s.inputDst = .ok d) (hi : s.inRead = none) :
    execIn f s = .fault .inputUnanswered := by
  simp only [execIn, hd, hi]

/-- The destination was checked before the request, so the write succeeds. -/
theorem execIn_value {s u : State} (f : Fields) {d : Int} {v : Word} (hd : s.inputDst = .ok d)
    (hi : s.inRead = some (.value v, u)) :
    execIn f s = .next { u with mem := u.mem.set d.toNat v, ip := u.ip + 2#64 } := by
  obtain ⟨_, -, -, hv⟩ := inputDst_ok.mp hd
  obtain ⟨c, rfl⟩ := inRead_frame hi
  have hw := memWrite_ok (s := { s with channel := c }) (a := d) (v := v) |>.mpr ⟨hv, rfl⟩
  simp only [execIn, hd, hi, hw, ok_bind]
  rfl

theorem execIn_endOfData {s u : State} (f : Fields) {d : Int} (hd : s.inputDst = .ok d)
    (hi : s.inRead = some (.endOfData, u)) : execIn f s = .next (u.raise (ioError .inputExhausted)) := by
  simp only [execIn, hd, hi]

theorem execIn_malformed {s u : State} (f : Fields) {d : Int} (hd : s.inputDst = .ok d)
    (hi : s.inRead = some (.malformed, u)) : execIn f s = .next (u.raise (ioError .inputMalformed)) := by
  simp only [execIn, hd, hi]

theorem inputDst_of_valid {s : State} {d : Word} (hd : s.CellIs (s.ip.toNat + 1) d) (hv : s.mem.valid d.toInt) :
    s.inputDst = .ok d.toInt :=
  inputDst_ok.mpr ⟨d, hd, rfl, hv⟩

/-- The host's standing answer, when its list is used up. -/
theorem inRead_standing {s : State} {a : InputAnswer} (h : s.channel.answers = [])
    (ha : s.channel.answersAfter = some a) : s.inRead = some (a, s) := by
  rw [inRead_nil h, ha, Option.map_some]

/-- Where the host's list is used up, an answer that it now gives is the next that is read, and leaves the state as it
was before the host gave it. -/
theorem inRead_hostAnswersInput {s : State} (h : s.channel.answers = []) (a : InputAnswer) :
    (s.hostAnswersInput a).inRead = some (a, s) := by
  have hone : (s.hostAnswersInput a).channel.answers = [a] := by simp [State.hostAnswersInput, h]
  have hback : { s.channel with answers := [] } = s.channel := by rw [← h]
  rw [inRead_cons hone]
  simp only [State.hostAnswersInput, hback]

/-- Settles O41: the host's next answer is the head of its list or the standing one. -/
theorem inputStoresTheHostsValue : Obligations.InputStoresTheHostsValue := by
  intro s f d v hd hv
  have hdst := inputDst_of_valid hd hv
  constructor
  · exact fun rest h => execIn_value f hdst (inRead_cons h)
  · exact fun h ha => execIn_value f hdst (inRead_standing h ha)

/-- Settles O42: the destination is checked before the request, and the answers EndOfData and Malformed raise. -/
theorem inputFailures : Obligations.InputFailures := by
  intro s f
  refine ⟨fun hp => execIn_dstRaises f (inputDst_error.mpr (.inl ⟨hp, rfl⟩)), fun d hd => ⟨?_, ?_, ?_⟩⟩
  · exact fun hv => execIn_dstRaises f (inputDst_error.mpr (.inr ⟨d, hd, hv, rfl⟩))
  · intro hv rest
    have hdst := inputDst_of_valid hd hv
    exact ⟨fun h => execIn_endOfData f hdst (inRead_cons h), fun h => execIn_malformed f hdst (inRead_cons h)⟩
  · intro hv h
    have hdst := inputDst_of_valid hd hv
    exact ⟨fun ha => execIn_endOfData f hdst (inRead_standing h ha),
      fun ha => execIn_malformed f hdst (inRead_standing h ha)⟩

/-- Settles O43: no answer, no next state; the host's answer is then the next that is read. -/
theorem unansweredInputWaits : Obligations.UnansweredInputWaits := by
  intro s f d hd hv h ha
  have hdst := inputDst_of_valid hd hv
  exact ⟨execIn_unanswered f hdst (inRead_none.mpr ⟨h, ha⟩), fun v =>
    execIn_value (s := s.hostAnswersInput (.value v)) f hdst (inRead_hostAnswersInput h _)⟩

/-- A request uses up at most the oldest answer, and nothing else of the channel. -/
def AsksInput (h h' : IoChannel) : Prop :=
  h' = { h with answers := h'.answers } ∧ (h'.answers = h.answers ∨ ∃ a, h.answers = a :: h'.answers)

theorem asksInput_refl (h : IoChannel) : AsksInput h h := ⟨rfl, .inl rfl⟩

theorem asksInput_of_inRead {s : State} {a : InputAnswer} {c : IoChannel}
    (h : s.inRead = some (a, { s with channel := c })) : AsksInput s.channel c := by
  rcases inRead_cases h with ⟨rest, hrest, hu⟩ | ⟨-, -, hu⟩
  · obtain rfl : c = { s.channel with answers := rest } := congrArg State.channel hu
    exact ⟨rfl, .inr ⟨a, hrest⟩⟩
  · obtain rfl : c = s.channel := congrArg State.channel hu
    exact asksInput_refl _

theorem execIn_frame {s t : State} {f : Fields} (h : execIn f s = .next t) :
    WritesAtMostDst s t 1 ∧ t.out = s.out ∧ AsksInput s.channel t.channel := by
  rcases execIn_cases h with
    ⟨r, -, ho⟩ | ⟨_, -, -, ho⟩ | ⟨d, v, c, hd, hi, ho⟩ | ⟨_, c, -, hi, ho⟩ | ⟨_, c, -, hi, ho⟩ <;> cases ho
  · exact ⟨.inl rfl, rfl, asksInput_refl _⟩
  · obtain ⟨p, hp, rfl, hv⟩ := inputDst_ok.mp hd
    exact ⟨.inr ⟨p.toInt, v, dst_ok.mpr ⟨p, hp, rfl⟩, hv.1, rfl⟩, rfl, asksInput_of_inRead hi⟩
  · exact ⟨.inl rfl, rfl, asksInput_of_inRead hi⟩
  · exact ⟨.inl rfl, rfl, asksInput_of_inRead hi⟩

/-- Settles O46: at most one write, at the destination, and at most one answer used up. -/
theorem inputFrame : Obligations.InputFrame := by
  intro s t f hwf h
  obtain ⟨hlen, hparams⟩ := exec_sameLenAndParams h
  rw [exec_input] at h
  obtain ⟨hmem, hout, hchannel, hanswers⟩ := execIn_frame h
  exact ⟨fun d hd b hb => get_of_writesAtMostDst hmem hwf hd hb, fun r hr => mem_of_writesAtMostDst hmem hr, hlen, hout,
    hparams, hchannel, hanswers, goesOnOrFails_of_progress (execIn_progress h)⟩

/-! OUT. -/

theorem execOut_operandFaults {s : State} {f : Fields} {x : Int} (hx : s.OperandFaults 1 f.modes.s1 x) :
    execOut f s = .next (s.raise (addressError .read x)) := by
  simp only [execOut, val_error.mpr ⟨x, hx, rfl⟩]

theorem execOut_accepted {s u : State} {f : Fields} {v : Word} (hv : s.OperandIs 1 f.modes.s1 v)
    (hw : s.verdict = (.accepted, u)) : execOut f s = .next { u with out := u.out ++ [v], ip := u.ip + 2#64 } := by
  simp only [execOut, val_ok.mpr hv, outWrite_accepted hw]
  rfl

theorem execOut_rejected {s u : State} {f : Fields} {v : Word} (hv : s.OperandIs 1 f.modes.s1 v)
    (hw : s.verdict = (.rejected, u)) : execOut f s = .next (u.raise (ioError .outputRejected)) := by
  simp only [execOut, val_ok.mpr hv, outWrite_rejected hw]

/-- The host's standing verdict, when its list is used up. -/
theorem verdict_standing {s : State} {a : OutputAnswer} (h : s.channel.verdicts = [])
    (ha : s.channel.verdictsAfter = a) : s.verdict = (a, s) := by
  rw [verdict_nil h, ha]

/-- Settles O44: the host's next verdict is the head of its list or the standing one. -/
theorem outputAppendsTheAcceptedValue : Obligations.OutputAppendsTheAcceptedValue := by
  intro s f v hv
  constructor
  · exact fun rest h => execOut_accepted hv (verdict_cons h)
  · exact fun h ha => execOut_accepted hv (verdict_standing h ha)

/-- Settles O45: OUT raises on a missing operand and on a rejection, and never waits. -/
theorem outputFailures : Obligations.OutputFailures := by
  intro s f
  refine ⟨execOut_next s f, fun x hx => execOut_operandFaults hx, fun v hv => ⟨?_, ?_⟩⟩
  · exact fun rest h => execOut_rejected hv (verdict_cons h)
  · exact fun h ha => execOut_rejected hv (verdict_standing h ha)

/-- An offer uses up at most the oldest verdict, and nothing else of the channel. -/
def OffersOutput (h h' : IoChannel) : Prop :=
  h' = { h with verdicts := h'.verdicts } ∧ (h'.verdicts = h.verdicts ∨ ∃ a, h.verdicts = a :: h'.verdicts)

theorem offersOutput_refl (h : IoChannel) : OffersOutput h h := ⟨rfl, .inl rfl⟩

theorem offersOutput_of_verdict {s : State} {a : OutputAnswer} {c : IoChannel}
    (h : s.verdict = (a, { s with channel := c })) : OffersOutput s.channel c := by
  rcases verdict_cases h with ⟨rest, hrest, hu⟩ | ⟨-, -, hu⟩
  · obtain rfl : c = { s.channel with verdicts := rest } := congrArg State.channel hu
    exact ⟨rfl, .inr ⟨a, hrest⟩⟩
  · obtain rfl : c = s.channel := congrArg State.channel hu
    exact offersOutput_refl _

theorem execOut_frame {s t : State} {f : Fields} (h : execOut f s = .next t) :
    t.mem = s.mem ∧ OffersOutput s.channel t.channel ∧
      (t.out = s.out ∨ ∃ v, s.OperandIs 1 f.modes.s1 v ∧ t.out = s.out ++ [v]) := by
  rcases execOut_cases h with ⟨_, -, ho⟩ | ⟨v, c, hv, hw, ho⟩ | ⟨_, c, -, hw, ho⟩ <;> cases ho
  · exact ⟨rfl, offersOutput_refl _, .inl rfl⟩
  · exact ⟨rfl, offersOutput_of_verdict hw, .inr ⟨v, hv, rfl⟩⟩
  · exact ⟨rfl, offersOutput_of_verdict hw, .inl rfl⟩

/-- Settles O47: no write, at most one value appended and at most one verdict used up. -/
theorem outputFrame : Obligations.OutputFrame := by
  intro s t f h
  obtain ⟨-, hparams⟩ := exec_sameLenAndParams h
  rw [exec_output] at h
  obtain ⟨hmem, ⟨hchannel, hverdicts⟩, hout⟩ := execOut_frame h
  exact ⟨hmem, hparams, hchannel, hverdicts, hout, goesOnOrFails_of_progress (execOut_progress h)⟩

end Sys2Proof.Machine

/-! PROOFS. The step and the host: which instruction uses which answer, where the core waits, and what a step does not
depend on (42_io.md R95 to R103; 60_exceptions.md R128). -/

namespace Sys2Proof.Machine

/-! The output and the channel. -/

/-- What an instruction does to the host's side: IN asks, OUT offers its operand, the others leave it alone. -/
theorem exec_hostSide {i : Instr} {s t : State} (h : exec i s = .next t) :
    (t.out = s.out ∧ t.channel = s.channel) ∨
    (∃ f, i = .input f ∧ t.out = s.out ∧ AsksInput s.channel t.channel) ∨
    (∃ f, i = .output f ∧ OffersOutput s.channel t.channel ∧
      (t.out = s.out ∨ ∃ v, s.OperandIs 1 f.modes.s1 v ∧ t.out = s.out ++ [v])) := by
  cases i with
  | add f => exact .inl (writeResult_frame h).2
  | mul f => exact .inl (writeResult_frame h).2
  | lt f => exact .inl (writeResult_frame h).2
  | eq f => exact .inl (writeResult_frame h).2
  | jt f => exact .inl (jumpWhen_frame h).2
  | jf f => exact .inl (jumpWhen_frame h).2
  | input f => exact .inr (.inl ⟨f, rfl, (execIn_frame (f := f) h).2⟩)
  | output f => exact .inr (.inr ⟨f, rfl, (execOut_frame h).2⟩)
  | halt f => cases h; exact .inl ⟨rfl, rfl⟩

/-- The same of a step, by the instruction at ip; a failed fetch leaves the host's side alone. -/
theorem step_hostSide {s t : State} (h : step s = .next t) :
    (t.out = s.out ∧ t.channel = s.channel) ∨
    (∃ f, decode s.params (s.mem.get s.ip.toNat) = .ok (.input f) ∧ t.out = s.out ∧
      AsksInput s.channel t.channel) ∨
    (∃ f, decode s.params (s.mem.get s.ip.toNat) = .ok (.output f) ∧ OffersOutput s.channel t.channel ∧
      (t.out = s.out ∨ ∃ v, s.OperandIs 1 f.modes.s1 v ∧ t.out = s.out ++ [v])) := by
  rcases step_cases h with ⟨-, ho⟩ | ⟨-, r, -, ho⟩ | ⟨-, i, hf, ho⟩
  · cases ho
  · cases ho
    exact .inl ⟨rfl, rfl⟩
  · obtain ⟨-, hd⟩ := fetchInstr_ok.mp hf
    rcases exec_hostSide ho.symm with hkept | ⟨f, rfl, hin⟩ | ⟨f, rfl, hout⟩
    · exact .inl hkept
    · exact .inr (.inl ⟨f, hd, hin⟩)
    · exact .inr (.inr ⟨f, hd, hout⟩)

/-- Settles O28: of the three things a step does to the host's side, only the offer appends. -/
theorem onlyOutAppendsOneRecord : Obligations.OnlyOutAppendsOneRecord := by
  intro s t h
  rcases step_hostSide h with ⟨hout, -⟩ | ⟨_, -, hout, -⟩ | ⟨f, hd, -, hout | ⟨v, hv, hout⟩⟩
  · exact .inl hout
  · exact .inl hout
  · exact .inl hout
  · exact .inr ⟨f, v, hd, hv, hout⟩

/-- Settles O29: a request leaves the verdicts and an offer the answers; each takes at most the head of its list. -/
theorem oneHostRequestPerInstruction : Obligations.OneHostRequestPerInstruction := by
  intro s t h
  rcases step_hostSide h with ⟨-, hc⟩ | ⟨f, hd, -, hc, hanswers⟩ | ⟨f, hd, ⟨hc, hverdicts⟩, -⟩
  · rw [hc]
    exact ⟨rfl, rfl, .inl rfl⟩
  · refine ⟨by rw [hc], by rw [hc], ?_⟩
    rcases hanswers with hsame | hhead
    · exact .inl (by rw [hc, hsame])
    · exact .inr (.inl ⟨f, hd, by rw [hc], hhead⟩)
  · refine ⟨by rw [hc], by rw [hc], ?_⟩
    rcases hverdicts with hsame | hhead
    · exact .inl (by rw [hc, hsame])
    · exact .inr (.inr ⟨f, hd, by rw [hc], hhead⟩)

/-! Where the core waits. -/

/-- An instruction answers a next state, or it is IN with a valid destination and a host that owes it an answer. -/
theorem exec_next_or_waits (i : Instr) (s : State) :
    (∃ t, exec i s = .next t) ∨
      (exec i s = .fault .inputUnanswered ∧ ∃ f d, i = .input f ∧ s.inputDst = .ok d ∧ s.inRead = none) := by
  cases i with
  | add f => exact .inl (writeResult_next s f _)
  | mul f => exact .inl (writeResult_next s f _)
  | lt f => exact .inl (writeResult_next s f _)
  | eq f => exact .inl (writeResult_next s f _)
  | jt f => exact .inl (jumpWhen_next s f _)
  | jf f => exact .inl (jumpWhen_next s f _)
  | output f => exact .inl (execOut_next s f)
  | halt f => exact .inl ⟨_, rfl⟩
  | input f =>
    rcases execIn_cases (f := f) (s := s) rfl with
      ⟨r, -, ho⟩ | ⟨d, hd, hi, ho⟩ | ⟨_, _, _, -, -, ho⟩ | ⟨_, _, -, -, ho⟩ | ⟨_, _, -, -, ho⟩
    case inr.inl => exact .inr ⟨ho, f, d, rfl, hd, hi⟩
    all_goals exact .inl ⟨_, ho⟩

/-- Settles O22: a failed fetch is a next state too, so a Running run stops at IN alone. -/
theorem runningRunsStepUnlessTheHostOwesAnAnswer : Obligations.RunningRunsStepUnlessTheHostOwesAnAnswer := by
  intro s
  refine ⟨fun hended => step_ended (by rcases hended with h | h <;> rw [h] <;> decide), fun hr => ?_⟩
  cases hf : s.fetchInstr with
  | error r => exact .inl ⟨_, step_error hr hf⟩
  | ok i =>
    rw [step_ok hr hf]
    rcases exec_next_or_waits i s with hnext | ⟨hwait, f, d, rfl, -, hi⟩
    · exact .inl hnext
    · obtain ⟨hanswers, hafter⟩ := inRead_none.mp hi
      exact .inr ⟨hwait, hanswers, hafter, f, (fetchInstr_ok.mp hf).2⟩

/-- Settles O57: the only fault of a Running run is IN's, in a state where the answer is all that is missing; neither
a verdict nor the channel at all changes what is fetched. -/
theorem theCoreWaitsOnlyInsideIn : Obligations.TheCoreWaitsOnlyInsideIn := by
  intro s x h
  rcases step_cases h with ⟨hr, ho⟩ | ⟨-, r, -, ho⟩ | ⟨hr, i, hf, ho⟩
  · cases ho
    exact .inl ⟨rfl, hr, fun a v =>
      ⟨step_ended (s := s.hostAnswersInput a) hr, step_ended (s := s.hostAnswersOutput v) hr⟩⟩
  · cases ho
  · rcases exec_next_or_waits i s with ⟨t, hnext⟩ | ⟨hwait, f, d, rfl, hd, hi⟩
    · cases ho.trans hnext
    · cases ho.trans hwait
      obtain ⟨hanswers, hafter⟩ := inRead_none.mp hi
      obtain ⟨p, hp, rfl, -⟩ := inputDst_ok.mp hd
      have stepAnswered (a : InputAnswer) : step (s.hostAnswersInput a) = execIn f (s.hostAnswersInput a) :=
        step_ok (s := s.hostAnswersInput a) hr hf
      refine .inr ⟨rfl, hr, fun v => ?_, f, p, (fetchInstr_ok.mp hf).2, hp, fun v => ?_, ?_, ?_⟩
      · exact (step_ok (s := s.hostAnswersOutput v) hr hf).trans
          (execIn_unanswered (s := s.hostAnswersOutput v) f hd (inRead_none.mpr ⟨hanswers, hafter⟩))
      · exact (stepAnswered _).trans (execIn_value f hd (inRead_hostAnswersInput hanswers _))
      · exact (stepAnswered _).trans (execIn_endOfData f hd (inRead_hostAnswersInput hanswers _))
      · exact (stepAnswered _).trans (execIn_malformed f hd (inRead_hostAnswersInput hanswers _))

/-! Independence of the host. -/

/-- The state with another channel and another output. -/
def State.withHost (s : State) (h : IoChannel) (o : List Word) : State := { s with channel := h, out := o }

/-- ADD, MUL, LT and EQ end alike with another host: operands and destination are read from memory. -/
theorem writeResult_withHost {s t : State} {f : Fields} {alu : Word → Word → Except Raise Word} (h : IoChannel)
    (o : List Word) (hs : s.writeResult f alu = .next t) :
    (s.withHost h o).writeResult f alu = .next (t.withHost h o) := by
  rcases writeResult_cases hs with ⟨a, b, d, r, ha, hb, hd, hr, hv, rfl⟩ | ⟨x, hx, rfl⟩ | ⟨a, x, ha, hx, rfl⟩ |
    ⟨a, b, ha, hb, hx, rfl⟩ | ⟨a, b, d, r, ha, hb, hd, hr, rfl⟩ | ⟨a, b, d, r, ha, hb, hd, hr, hv, rfl⟩
  · exact writeResult_completes (s := s.withHost h o) ha hb hd hr hv
  · exact writeResult_operand1Faults (s := s.withHost h o) hx
  · exact writeResult_operand2Faults (s := s.withHost h o) ha hx
  · exact writeResult_dstParamFaults (s := s.withHost h o) ha hb hx
  · exact writeResult_aluRaises (s := s.withHost h o) ha hb hd hr
  · exact writeResult_dstFaults (s := s.withHost h o) ha hb hd hr hv

/-- So does a conditional jump. -/
theorem jumpWhen_withHost {s t : State} {f : Fields} {taken : Word → Bool} (h : IoChannel) (o : List Word)
    (hs : s.jumpWhen f taken = .next t) : (s.withHost h o).jumpWhen f taken = .next (t.withHost h o) := by
  rcases jumpWhen_cases hs with
    ⟨c, g, hc, hg, ⟨ht, h0, rfl⟩ | ⟨ht, h0, rfl⟩ | ⟨ht, rfl⟩⟩ | ⟨x, hx, rfl⟩ | ⟨c, x, hc, hx, rfl⟩
  · exact jumpWhen_taken (s := s.withHost h o) hc hg ht h0
  · exact jumpWhen_taken_neg (s := s.withHost h o) hc hg ht h0
  · exact jumpWhen_untaken (s := s.withHost h o) hc hg ht
  · exact jumpWhen_operand1Faults (s := s.withHost h o) hx
  · exact jumpWhen_operand2Faults (s := s.withHost h o) hc hx

/-- Settles O30: the fetch reads no channel, and neither does the handler of an instruction other than IN and OUT. -/
theorem otherInstructionsDoNotDependOnTheHost : Obligations.OtherInstructionsDoNotDependOnTheHost := by
  intro s t h o hnotIn hnotOut hs
  rcases step_cases hs with ⟨-, ho⟩ | ⟨hr, r, hf, ho⟩ | ⟨hr, i, hf, ho⟩
  · cases ho
  · cases ho
    exact step_error (s := s.withHost h o) hr hf
  · obtain ⟨-, hd⟩ := fetchInstr_ok.mp hf
    refine (step_ok (s := s.withHost h o) hr hf).trans ?_
    cases i with
    | add f => exact writeResult_withHost h o ho.symm
    | mul f => exact writeResult_withHost h o ho.symm
    | lt f => exact writeResult_withHost h o ho.symm
    | eq f => exact writeResult_withHost h o ho.symm
    | jt f => exact jumpWhen_withHost h o ho.symm
    | jf f => exact jumpWhen_withHost h o ho.symm
    | input f => exact absurd hd (hnotIn f)
    | output f => exact absurd hd (hnotOut f)
    | halt f => cases ho; rfl

/-! Self-modifying code. -/

/-- The state after an instruction of n cells that wrote the word w to the cell that follows it. -/
def State.wroteNext (s : State) (n : Nat) (w : Word) (c : IoChannel) : State :=
  { s with mem := s.mem.set (s.ip.toNat + n) w, ip := s.ip + BitVec.ofNat 64 n, channel := c }

/-- The next step runs that word: ip has not wrapped, and the fetch reads what was written (20_memory.md R49). -/
theorem step_wroteNext {s : State} {n : Nat} {w : Word} {i : Instr} (c : IoChannel) (hinv : s.Inv)
    (hr : s.runState = .running) (hl : s.ip.toNat + n < s.mem.len) (hd : decode s.params w = .ok i) :
    step (s.wroteNext n w c) = exec i (s.wroteNext n w c) := by
  have hlen : s.mem.len ≤ 9223372036854775808 := hinv.memLen
  have hip : (s.wroteNext n w c).ip.toNat = s.ip.toNat + n := by
    simp only [State.wroteNext, BitVec.toNat_add, BitVec.toNat_ofNat]
    omega
  have hget : (s.wroteNext n w c).mem.get (s.ip.toNat + n) = w := (get_set hinv.memWf).trans (if_pos rfl)
  exact step_ok (s := s.wroteNext n w c) hr (fetchInstr_ok.mpr ⟨by rw [hip]; exact hl, by rw [hip, hget]; exact hd⟩)

/-- Settles O31: ADD and IN end in the state `wroteNext`, with n = 4 and n = 2. -/
theorem writtenWordRunsNext : Obligations.WrittenWordRunsNext := by
  intro s f i hinv hr
  constructor
  · intro a b d ha hb hd hnext hv hin hdec
    have hnat : d.toInt.toNat = s.ip.toNat + 4 := by omega
    have hexec : exec (.add f) s = .next (s.wroteNext 4 (a + b) s.channel) := by
      rw [State.wroteNext, ← hnat, ← wrap64_add a b]
      exact writeResult_completes ha hb hd (aluResult_inRange hin) hv
    exact ⟨_, hexec, step_wroteNext s.channel hinv hr (by omega) hdec⟩
  · intro d v rest hd hnext hv hanswers hdec
    have hnat : d.toInt.toNat = s.ip.toNat + 2 := by omega
    have hexec : exec (.input f) s = .next (s.wroteNext 2 v { s.channel with answers := rest }) := by
      rw [State.wroteNext, ← hnat]
      exact execIn_value f (inputDst_of_valid hd hv) (inRead_cons hanswers)
    exact ⟨_, hexec, step_wroteNext _ hinv hr (by omega) hdec⟩

end Sys2Proof.Machine

/-! PROOFS. What the host reads: STATUS (10_state.md R29, R30) and an ended run (70_reset_and_hazards.md R136 to
R138). -/

namespace Sys2Proof.Machine

theorem runState_code_lt (r : RunState) : r.code < 3 := by cases r <;> decide

theorem errKind_code_lt (k : ErrKind) : k.code < 5 := by cases k <;> decide

theorem cause_sub_lt (c : Cause) : c.sub < 4 := by
  rcases c with _ | c | c | c | c
  case noError => decide
  all_goals cases c <;> decide

/-- STATUS as a number: its four fields fit their places. -/
theorem status_toNat (s : State) : s.status.toNat =
    s.runState.code + 4 * s.err.cause.kind.code + 32 * s.err.cause.sub + 128 * s.err.slot.val := by
  have h1 := runState_code_lt s.runState
  have h2 := errKind_code_lt s.err.cause.kind
  have h3 := cause_sub_lt s.err.cause
  have h4 := s.err.slot.isLt
  rw [State.status, BitVec.toNat_ofNat]
  omega

/-- Settles O54: each field is below the place of the next. -/
theorem statusFieldsAreReadable : Obligations.StatusFieldsAreReadable := by
  intro s
  have h1 := runState_code_lt s.runState
  have h2 := errKind_code_lt s.err.cause.kind
  have h3 := cause_sub_lt s.err.cause
  have h4 := s.err.slot.isLt
  rw [status_toNat]
  omega

/-- Settles O55: STATUS depends on the run state, the cause and the slot alone, and these are given. -/
theorem statusWordsOfNamedFailures : Obligations.StatusWordsOfNamedFailures := by
  intro s
  refine ⟨fun he hr => ?_, fun he hr => ?_, fun v => ⟨rfl, rfl, rfl, rfl, rfl, rfl, rfl⟩⟩
  · rw [State.status, he, hr]; rfl
  · rw [State.status, he, hr]; rfl

/-- A run has ended exactly when it is not Running. -/
theorem ended_iff {s : State} : s.ended = true ↔ s.runState ≠ .running := by
  cases h : s.runState <;> simp [State.ended, h]

theorem hostReadCell_ended {s : State} {a : Nat} (hr : s.runState ≠ .running) (ha : a < s.mem.len) :
    s.hostReadCell a = some (s.mem.get a) := by
  rw [State.hostReadCell, if_neg hr, if_pos ha]

/-- Settles O56: what the host reads is guarded by the run state. -/
theorem hostReadsOnlyEndedRuns : Obligations.HostReadsOnlyEndedRuns := by
  intro s
  refine ⟨fun hr => ⟨?_, ?_, fun a => if_pos hr⟩, fun hr => ⟨if_pos (ended_iff.mpr hr), fun a => hostReadCell_ended hr⟩,
    fun hr hl => ?_, fun hr => ?_⟩
  · exact if_neg (fun he => ended_iff.mp he hr)
  · rw [State.result, hr]
  · have hne : s.runState ≠ .running := by rw [hr]; decide
    simp only [State.result, hr, hostReadCell_ended hne hl]
  · rw [State.result, hr]

end Sys2Proof.Machine
